-- ==== Sys2Proof/Word.lean ====
section
/-! DEFINITION. The word and byte types of RISCII (00_scope.md R3, R6, R9). -/

namespace Sys2Proof

/-- `Word16` of 00_scope.md R9: every register, memory word, address and the pc. Arithmetic on it is modulo
65536, as R9 says; `BitVec.toInt` is the spec's `int16` (two's complement, log entry 21). -/
abbrev Word := BitVec 16

/-- A byte is 8 bits (00_scope.md R3). -/
abbrev Byte := BitVec 8

/-- A register number: the 3-bit field value 0 to 7 itself (10_state.md R21). -/
abbrev Reg := BitVec 3

end Sys2Proof
end

