-- ==== Sys2Proof/Syntax.lean ====
section
/-! DEFINITION. The instructions: one constructor per row of spec/opcode_table.json (30_encoding.md R85), with the
fields of 00_scope.md R11. A field is a bit vector of exactly the field's width, so every term is an instruction: R93
says that no field value is reserved inside a defined form (log entry 22). -/

namespace Sys2Proof

/-- The 25 instruction forms of 30_encoding.md R85, in its order. -/
inductive Instr where
  /-- Row 1, `AND rd, ra, rb` (40_bitwise.md R121). -/
  | andReg (dst sr1 sr2 : Reg)
  /-- Row 2, `AND rd, ra, #i` (40_bitwise.md R122). -/
  | andImm (dst sr1 : Reg) (imm5 : BitVec 5)
  /-- Row 3, `ORR rd, ra, rb` (40_bitwise.md R123). -/
  | orrReg (dst sr1 sr2 : Reg)
  /-- Row 4, `ORR rd, ra, #i` (40_bitwise.md R124). -/
  | orrImm (dst sr1 : Reg) (imm5 : BitVec 5)
  /-- Row 5, `XOR rd, ra, rb` (40_bitwise.md R125). -/
  | xorReg (dst sr1 sr2 : Reg)
  /-- Row 6, `XOR rd, ra, #i` (40_bitwise.md R126). -/
  | xorImm (dst sr1 : Reg) (imm5 : BitVec 5)
  /-- Row 7, `SHL rd, ra, rb`: `sr1` is shifted by `sr2` (41_shift.md R141). -/
  | shlReg (dst sr1 sr2 : Reg)
  /-- Row 8, `SHL rd, ra, #k` (41_shift.md R142). -/
  | shlImm (dst sr1 : Reg) (imm4 : BitVec 4)
  /-- Row 9, `SHR rd, ra, rb`, arithmetic when flag `a` is set (41_shift.md R143). -/
  | shrReg (dst sr1 : Reg) (a : Bool) (sr2 : Reg)
  /-- Row 10, `SHR rd, ra, #k`, arithmetic when flag `a` is set (41_shift.md R144). -/
  | shrImm (dst sr1 : Reg) (a : Bool) (imm4 : BitVec 4)
  /-- Row 11, `ADD rd, ra, rb` (42_arith.md R161). -/
  | addReg (dst sr1 sr2 : Reg)
  /-- Row 12, `ADD rd, ra, #i` (42_arith.md R162). -/
  | addImm (dst sr1 : Reg) (imm5 : BitVec 5)
  /-- Row 13, `SUB rd, ra, rb`: `sr1` is the subtrahend (42_arith.md R165). -/
  | subReg (dst sr1 sr2 : Reg)
  /-- Row 14, `SUB rd, ra, #i`: `sr1` is the subtrahend (42_arith.md R166). -/
  | subImm (dst sr1 : Reg) (imm5 : BitVec 5)
  /-- Row 15, `LBI rd, #i`, s = 0 (43_lbi.md R181). -/
  | lbi (dst : Reg) (imm8 : BitVec 8)
  /-- Row 16, `LBI.s rd, #i`, s = 1 (43_lbi.md R182). -/
  | lbiShift (dst : Reg) (imm8 : BitVec 8)
  /-- Row 17, `LDR rd, ra, #o` (44_load_store.md R191). -/
  | ldr (dst sr1 : Reg) (ofst6 : BitVec 6)
  /-- Row 18, `STR rs, ra, #o` (44_load_store.md R192). -/
  | str (src sr1 : Reg) (ofst6 : BitVec 6)
  /-- Row 19, `BRC.<flags> #o` (45_control.md R210, R211). -/
  | brc (n z p c : Bool) (imm8 : BitVec 8)
  /-- Row 20, `JPR ra, #i`, flag r = 0 (45_control.md R213). -/
  | jpr (sr1 : Reg) (imm5 : BitVec 5)
  /-- Row 21, the return from interrupt, flag r = 1 (45_control.md R214). -/
  | rti
  /-- Row 22, `JLR rd, ra, #i` (45_control.md R216). -/
  | jlr (dst sr1 : Reg) (imm5 : BitVec 5)
  /-- Row 23, `SWP rd, ra, #o` (46_swap.md R241). -/
  | swp (dst sr1 : Reg) (ofst6 : BitVec 6)
  /-- Row 24, `NOP` (47_nop_hlt.md R250). -/
  | nop
  /-- Row 25, `HLT` (47_nop_hlt.md R252). -/
  | hlt
  deriving DecidableEq, Repr

end Sys2Proof
end

