-- ==== Sys2Proof/WellFormed.lean ====
section
/-! DEFINITION. Which words are instructions: the match and mask table of 30_encoding.md R85. Inside a defined form no
field value is reserved (R93) and the fields of Instr have exactly their widths, so every Instr is well formed; what can
be ill formed is a word, and the words that match no row are the reserved encodings of R90. -/

namespace Sys2Proof

/-- One row of the table of 30_encoding.md R85: a word `w` has the row's form when `w & mask = pattern`. -/
structure Row where
  mnemonic : String
  pattern : Word
  mask : Word
  deriving DecidableEq, Repr

/-- Does the word have the row's form? (30_encoding.md R85) -/
def Row.selects (r : Row) (w : Word) : Bool := w &&& r.mask == r.pattern

/-- The row of each instruction form (30_encoding.md R85, columns Mnemonic, match and mask). -/
def Instr.row : Instr → Row
  | .andReg _ _ _ => ⟨"AND", 0xF000#16, 0xF038#16⟩
  | .andImm _ _ _ => ⟨"AND", 0xF020#16, 0xF020#16⟩
  | .orrReg _ _ _ => ⟨"ORR", 0xE000#16, 0xF038#16⟩
  | .orrImm _ _ _ => ⟨"ORR", 0xE020#16, 0xF020#16⟩
  | .xorReg _ _ _ => ⟨"XOR", 0xB000#16, 0xF038#16⟩
  | .xorImm _ _ _ => ⟨"XOR", 0xB020#16, 0xF020#16⟩
  | .shlReg _ _ _ => ⟨"SHL", 0xC000#16, 0xF038#16⟩
  | .shlImm _ _ _ => ⟨"SHL", 0xC020#16, 0xF030#16⟩
  | .shrReg _ _ _ _ => ⟨"SHR", 0xD000#16, 0xF028#16⟩
  | .shrImm _ _ _ _ => ⟨"SHR", 0xD020#16, 0xF020#16⟩
  | .addReg _ _ _ => ⟨"ADD", 0x8000#16, 0xF038#16⟩
  | .addImm _ _ _ => ⟨"ADD", 0x8020#16, 0xF020#16⟩
  | .subReg _ _ _ => ⟨"SUB", 0x9000#16, 0xF038#16⟩
  | .subImm _ _ _ => ⟨"SUB", 0x9020#16, 0xF020#16⟩
  | .lbi _ _ => ⟨"LBI", 0xA000#16, 0xF100#16⟩
  | .lbiShift _ _ => ⟨"LBI", 0xA100#16, 0xF100#16⟩
  | .ldr _ _ _ => ⟨"LDR", 0x5000#16, 0xF000#16⟩
  | .str _ _ _ => ⟨"STR", 0x4000#16, 0xF000#16⟩
  | .brc _ _ _ _ _ => ⟨"BRC", 0x2000#16, 0xF000#16⟩
  | .jpr _ _ => ⟨"JPR", 0x6000#16, 0xFE20#16⟩
  | .rti => ⟨"RTI", 0x6020#16, 0xFFFF#16⟩
  | .jlr _ _ _ => ⟨"JLR", 0x7000#16, 0xF020#16⟩
  | .swp _ _ _ => ⟨"SWP", 0x1000#16, 0xF000#16⟩
  | .nop => ⟨"NOP", 0x0000#16, 0xFFFF#16⟩
  | .hlt => ⟨"HLT", 0x3000#16, 0xFFFF#16⟩

/-- The whole table of 30_encoding.md R85: the row of one instruction of each form, in the table's order. -/
def opcodeRows : List Row :=
  [Instr.andReg 0 0 0, .andImm 0 0 0, .orrReg 0 0 0, .orrImm 0 0 0, .xorReg 0 0 0, .xorImm 0 0 0,
   .shlReg 0 0 0, .shlImm 0 0 0, .shrReg 0 0 false 0, .shrImm 0 0 false 0, .addReg 0 0 0, .addImm 0 0 0,
   .subReg 0 0 0, .subImm 0 0 0, .lbi 0 0, .lbiShift 0 0, .ldr 0 0 0, .str 0 0 0,
   .brc false false false false 0, .jpr 0 0, .rti, .jlr 0 0 0, .swp 0 0 0, .nop, .hlt].map Instr.row

/-- A well-formed word matches a row of the table; the others are reserved (30_encoding.md R90). -/
def wellFormedWord (w : Word) : Bool := opcodeRows.any (fun r => r.selects w)

end Sys2Proof
end

