-- ==== Sys2Proof/Decode.lean ====
section
/-! DEFINITION. Decoding, from bytes and from words, and the encoder (30_encoding.md R80 to R91). The decoder is the
procedure of R86, total on all 65,536 words; a word it has no form for is rejected by name (R90). -/

namespace Sys2Proof

/-! ### How a word lies in two bytes

The spec fixes no byte order and none is observable (20_memory.md R59). DESIGN CHOICE: low byte first, log entry 8. -/

/-- The word of two bytes, the byte at the lower address first. -/
def wordOfBytes (lower upper : Byte) : Word := upper ++ lower

/-- The byte of a word that lies at the word's own (even) address. -/
def lowerByte (w : Word) : Byte := w.extractLsb' 0 8

/-- The byte of a word that lies at the word's address plus one. -/
def upperByte (w : Word) : Byte := w.extractLsb' 8 8

/-- A word laid out in bytes, lowest address first. -/
def bytesOfWord (w : Word) : List Byte := [lowerByte w, upperByte w]

/-! ### The fields of 00_scope.md R11 -/

/-- The major opcode `w[15:12]` (30_encoding.md R83). -/
def opField (w : Word) : BitVec 4 := w.extractLsb' 12 4
/-- `DST`, or `SRC` of STR: `w[11:9]`. -/
def dstField (w : Word) : Reg := w.extractLsb' 9 3
/-- `SR1` = `w[8:6]`. -/
def sr1Field (w : Word) : Reg := w.extractLsb' 6 3
/-- `SR2` = `w[2:0]`. -/
def sr2Field (w : Word) : Reg := w.extractLsb' 0 3
/-- `4bIm` = `w[3:0]`. -/
def imm4Field (w : Word) : BitVec 4 := w.extractLsb' 0 4
/-- `5bImm` = `w[4:0]`. -/
def imm5Field (w : Word) : BitVec 5 := w.extractLsb' 0 5
/-- `6bOfst` = `w[5:0]`. -/
def ofst6Field (w : Word) : BitVec 6 := w.extractLsb' 0 6
/-- `8bImmVal` = `w[7:0]`. -/
def imm8Field (w : Word) : BitVec 8 := w.extractLsb' 0 8
/-- One bit, `w[i]`. -/
def bitField (w : Word) (i : Nat) : Bool := w.getLsbD i

/-! ### Decoding -/

/-- Why bytes are not an instruction. -/
inductive Reject where
  /-- Fewer than the two bytes that every instruction has (30_encoding.md R80). -/
  | truncated
  /-- A reserved encoding: the word matches no row of the table (30_encoding.md R90). -/
  | reserved (w : Word)
  deriving DecidableEq, Repr

/-- The five three-operand operations with a register form and a 5-bit immediate form (30_encoding.md R86, opcodes 8, 9,
B, E and F). -/
def decodeThreeOperand (w : Word) (reg : Reg → Reg → Reg → Instr) (imm : Reg → Reg → BitVec 5 → Instr) :
    Except Reject Instr :=
  if bitField w 5 then .ok (imm (dstField w) (sr1Field w) (imm5Field w))
  else if bitField w 4 || bitField w 3 then .error (.reserved w)
  else .ok (reg (dstField w) (sr1Field w) (sr2Field w))

/-- SHL (30_encoding.md R86, opcode C). -/
def decodeShl (w : Word) : Except Reject Instr :=
  if bitField w 5 then
    if bitField w 4 then .error (.reserved w)
    else .ok (.shlImm (dstField w) (sr1Field w) (imm4Field w))
  else if bitField w 4 || bitField w 3 then .error (.reserved w)
  else .ok (.shlReg (dstField w) (sr1Field w) (sr2Field w))

/-- SHR (30_encoding.md R86, opcode D). -/
def decodeShr (w : Word) : Except Reject Instr :=
  if bitField w 5 then .ok (.shrImm (dstField w) (sr1Field w) (bitField w 4) (imm4Field w))
  else if bitField w 3 then .error (.reserved w)
  else .ok (.shrReg (dstField w) (sr1Field w) (bitField w 4) (sr2Field w))

/-- JPR and the return from interrupt (30_encoding.md R86, R91, opcode 6). -/
def decodeJpr (w : Word) : Except Reject Instr :=
  if w = 0x6020#16 then .ok .rti
  else if dstField w = 0#3 then
    if bitField w 5 then .error (.reserved w)
    else .ok (.jpr (sr1Field w) (imm5Field w))
  else .error (.reserved w)

/-- JLR (30_encoding.md R86, opcode 7). -/
def decodeJlr (w : Word) : Except Reject Instr :=
  if bitField w 5 then .error (.reserved w)
  else .ok (.jlr (dstField w) (sr1Field w) (imm5Field w))

/-- The decode function of 30_encoding.md R86, by major opcode. -/
def decodeWord (w : Word) : Except Reject Instr :=
  match (opField w).toNat with
  | 0x0 => if w = 0x0000#16 then .ok .nop else .error (.reserved w)
  | 0x1 => .ok (.swp (dstField w) (sr1Field w) (ofst6Field w))
  | 0x2 => .ok (.brc (bitField w 11) (bitField w 10) (bitField w 9) (bitField w 8) (imm8Field w))
  | 0x3 => if w = 0x3000#16 then .ok .hlt else .error (.reserved w)
  | 0x4 => .ok (.str (dstField w) (sr1Field w) (ofst6Field w))
  | 0x5 => .ok (.ldr (dstField w) (sr1Field w) (ofst6Field w))
  | 0x6 => decodeJpr w
  | 0x7 => decodeJlr w
  | 0x8 => decodeThreeOperand w .addReg .addImm
  | 0x9 => decodeThreeOperand w .subReg .subImm
  | 0xA => if bitField w 8 then .ok (.lbiShift (dstField w) (imm8Field w)) else .ok (.lbi (dstField w) (imm8Field w))
  | 0xB => decodeThreeOperand w .xorReg .xorImm
  | 0xC => decodeShl w
  | 0xD => decodeShr w
  | 0xE => decodeThreeOperand w .orrReg .orrImm
  | 0xF => decodeThreeOperand w .andReg .andImm
  | _ => .error (.reserved w)  -- no 4-bit opcode is above 0xF (30_encoding.md R84)

/-- Decode the instruction at the head of a list of bytes, lowest address first, and give back the rest. Every
instruction is one word (30_encoding.md R80). -/
def decode : List Byte → Except Reject (Instr × List Byte)
  | lower :: upper :: rest =>
    match decodeWord (wordOfBytes lower upper) with
    | .ok i => .ok (i, rest)
    | .error r => .error r
  | _ => .error .truncated

/-! ### Encoding -/

/-- The word of each instruction, its fields in the order of the pattern of 30_encoding.md R81, bit 15 first. -/
def encodeWord : Instr → Word
  | .andReg d a b => 0b1111#4 ++ d ++ a ++ 0b000#3 ++ b
  | .andImm d a i => 0b1111#4 ++ d ++ a ++ 0b1#1 ++ i
  | .orrReg d a b => 0b1110#4 ++ d ++ a ++ 0b000#3 ++ b
  | .orrImm d a i => 0b1110#4 ++ d ++ a ++ 0b1#1 ++ i
  | .xorReg d a b => 0b1011#4 ++ d ++ a ++ 0b000#3 ++ b
  | .xorImm d a i => 0b1011#4 ++ d ++ a ++ 0b1#1 ++ i
  | .shlReg d a b => 0b1100#4 ++ d ++ a ++ 0b000#3 ++ b
  | .shlImm d a k => 0b1100#4 ++ d ++ a ++ 0b10#2 ++ k
  | .shrReg d a f b => 0b1101#4 ++ d ++ a ++ 0b0#1 ++ BitVec.ofBool f ++ 0b0#1 ++ b
  | .shrImm d a f k => 0b1101#4 ++ d ++ a ++ 0b1#1 ++ BitVec.ofBool f ++ k
  | .addReg d a b => 0b1000#4 ++ d ++ a ++ 0b000#3 ++ b
  | .addImm d a i => 0b1000#4 ++ d ++ a ++ 0b1#1 ++ i
  | .subReg d a b => 0b1001#4 ++ d ++ a ++ 0b000#3 ++ b
  | .subImm d a i => 0b1001#4 ++ d ++ a ++ 0b1#1 ++ i
  | .lbi d i => 0b1010#4 ++ d ++ 0b0#1 ++ i
  | .lbiShift d i => 0b1010#4 ++ d ++ 0b1#1 ++ i
  | .ldr d a o => 0b0101#4 ++ d ++ a ++ o
  | .str r a o => 0b0100#4 ++ r ++ a ++ o
  | .brc n z p c i =>
    0b0010#4 ++ BitVec.ofBool n ++ BitVec.ofBool z ++ BitVec.ofBool p ++ BitVec.ofBool c ++ i
  | .jpr a i => 0b0110#4 ++ 0b000#3 ++ a ++ 0b0#1 ++ i
  | .rti => 0b0110000000100000#16
  | .jlr d a i => 0b0111#4 ++ d ++ a ++ 0b0#1 ++ i
  | .swp d a o => 0b0001#4 ++ d ++ a ++ o
  | .nop => 0b0000000000000000#16
  | .hlt => 0b0011000000000000#16

/-- The bytes of an instruction, lowest address first: its one word. -/
def encode (i : Instr) : List Byte := bytesOfWord (encodeWord i)

/-- The instruction that the decoder reads from a word of spec/opcode_table.json: `nbits` bits, `w` their value. -/
def decodeTableWord (nbits w : Nat) : Option Instr :=
  match decode (bytesOfWord (BitVec.ofNat 16 (w % 2 ^ nbits))) with
  | .ok (i, _) => some i
  | .error _ => none

end Sys2Proof
end

