-- ==== Sys2Proof/Config.lean ====
section
/-! DEFINITION. What an implementation fixes and the free values: the parameters of 00_scope.md R7 that the model
does not settle elsewhere. The free values are opaque: no proof can see what they are. -/

namespace Sys2Proof

/-- The three shift operations that parameter SHIFT_OVER distinguishes (41_shift.md R145). -/
inductive ShiftOp where
  | left
  | rightLogical
  | rightArith
  deriving DecidableEq, Repr

/-- Parameter RESET_PC (10_state.md R43, 70_reset_and_hazards.md R291): the pc at the start of a run. The spec leaves
it OPEN and suggests 0x0000. DESIGN CHOICE, unsafe: log entry 3. -/
def Config.resetPc : Word := 0x0000#16

/-- Parameter SHIFT_OVER (41_shift.md R145): the result of a register-form shift whose distance is 16 or more, "a
total function of the operation, the value and the distance alone, about which a model assumes nothing". A free value,
safe: log entry 6. -/
opaque Config.shiftOver : ShiftOp → (value : Word) → (distance : Word) → Word

/-- Parameter C_NONSUB (10_state.md R31): the bit written to flag C by a data operation other than SUB, "a draw, a
fresh unconstrained bit at each execution". The argument is the model's draw counter, `State.draws`. A free value, safe:
log entry 5. -/
opaque Config.freeCarry : (draw : Nat) → Bool

end Sys2Proof
end

