-- ==== Sys2Proof/Machine/State.lean ====
section
/-! DEFINITION. The state of the machine (10_state.md R20, "exactly"), why a step can stop, and the state after reset.
Reserved for the spec's own vocabulary: processor flags in capitals (00_scope.md R12). -/

namespace Sys2Proof.Machine

/-- The two address spaces (10_state.md R34). -/
inductive Space where
  | program
  | data
  deriving DecidableEq, Repr

/-- Whether a data access reads or writes (the info of `UnmappedDevice`, 60_exceptions.md R261). -/
inductive Access where
  | read
  | write
  deriving DecidableEq, Repr

/-- The four processor flags of 10_state.md R27. -/
structure Flags where
  /-- Negative. -/
  N : Bool
  /-- Zero. -/
  Z : Bool
  /-- Positive. -/
  P : Bool
  /-- Carry. -/
  C : Bool
  deriving DecidableEq, Repr

/-- The bytes of one address space that hold a value: addresses strictly rising, no entry equal to what an unlisted
address reads as (the form is `Memory.wf` of Machine/Ops.lean). -/
abbrev Memory := List Host.Cell

/-- The architectural state of 10_state.md R20 and the model's draw counter. -/
structure State where
  /-- The eight general registers (10_state.md R21). -/
  x : Vector Word 8
  /-- The address of the instruction being executed (10_state.md R24). -/
  pc : Word
  /-- The condition codes (10_state.md R27). -/
  flags : Flags
  /-- The halted state (10_state.md R38). -/
  halted : Bool
  /-- The program address space, PMEM (10_state.md R34; parameter PROG). -/
  prog : Memory
  /-- The generic memory of the data address space, DMEM (10_state.md R34, 20_memory.md R57). -/
  data : Memory
  /-- The model's own field: how many draws of flag C have been taken (10_state.md R31; log entry 5). -/
  draws : Nat
  deriving DecidableEq, Repr

/-- The model faults of 60_exceptions.md R261: the spec defines no behaviour, the run stops, and the state is the one
before the instruction. All are safe: the hardware does something, the model refuses to say what. -/
inductive Fault where
  /-- `MisalignedFetch`: the pc is odd at the start of a step (10_state.md R26). Raised by the fetch. Safe: log entry 11. -/
  | misalignedFetch (pc : Word)
  /-- `UninitialisedRead` of a memory word that nothing has written (10_state.md R44, 20_memory.md R51, R52). Raised by the
  fetch (program space) and by LDR and SWP (data space). Safe: log entry 7. -/
  | uninitialisedRead (space : Space) (addr : Word)
  /-- `ReservedEncoding`: the fetched word matches no row of the opcode table (30_encoding.md R90). Raised by decoding in
  a step. Safe: log entry 12. -/
  | reservedEncoding (w : Word) (pc : Word)
  /-- `MisalignedData`: an odd effective address (20_memory.md R55). Raised by LDR, STR and SWP. Safe: log entry 10. -/
  | misalignedData (addr : Word)
  /-- `UnmappedDevice`: an effective address in 0x8000 to 0xFFFF, parameter MMIO being "no device" (20_memory.md R58).
  Raised by LDR, STR and SWP. Safe: log entry 9. -/
  | unmappedDevice (addr : Word) (access : Access)
  deriving DecidableEq, Repr

/-- Why a step has no meaning in the model. -/
inductive Refusal where
  /-- An instruction without a meaning yet, by its mnemonic. Raised by `exec` alone; no arm raises it now. Safe. -/
  | notModelled (mnemonic : String)
  deriving DecidableEq, Repr

/-- The state after reset (10_state.md R43): pc at RESET_PC, not halted, nothing in either memory. Where R43 leaves an item
unwritten the model names a value: registers 0 (log entry 1), flags 0 (log entry 2), the draw counter 0 (log entry 5), all
DESIGN CHOICE. -/
def State.reset : State where
  x := Vector.replicate 8 0x0000#16
  pc := Config.resetPc
  flags := ⟨false, false, false, false⟩
  halted := false
  prog := []
  data := []
  draws := 0

end Sys2Proof.Machine
end

