-- ==== Sys2Proof/Machine/Ops.lean ====
section
/-! DEFINITION. The named operations over registers and memory, the fetch, and the ends an instruction can have. All
reads of an instruction's operands are taken from the state before it (10_state.md R45, log entry 16). -/

namespace Sys2Proof.Machine

/-! ### Registers, flags and pc -/

/-- `x[r]` (00_scope.md R10); no register is hardwired (10_state.md R22). -/
def State.reg (s : State) (r : Reg) : Word := s.x[r.toNat]'r.isLt

/-- `x[r] <- v`. -/
def State.setReg (s : State) (r : Reg) (v : Word) : State := { s with x := s.x.set r.toNat v r.isLt }

/-- `pc <- a`. -/
def State.setPc (s : State) (a : Word) : State := { s with pc := a }

/-- All four processor flags written. -/
def State.setFlags (s : State) (f : Flags) : State := { s with flags := f }

/-- `halted <- h`. -/
def State.setHalted (s : State) (h : Bool) : State := { s with halted := h }

/-- The program address space replaced; no instruction does this (20_memory.md R66). -/
def State.setProg (s : State) (m : Memory) : State := { s with prog := m }

/-- The generic data memory replaced. -/
def State.setData (s : State) (m : Memory) : State := { s with data := m }

/-- One draw of flag C taken (10_state.md R31). -/
def State.nextDraw (s : State) : State := { s with draws := s.draws + 1 }

/-- The address after this instruction, `pc + 2` modulo 65536 (10_state.md R25, R26). -/
def State.nextPc (s : State) : Word := s.pc + 2#16

/-- `pc <- pc + 2`, the sequential advance (10_state.md R25). -/
def State.advance (s : State) : State := s.setPc s.nextPc

/-! ### Bytes of memory -/

/-- What an address that lists no byte reads as: no value, so that a read of it is `UninitialisedRead` (10_state.md R44,
log entry 7). -/
def unlistedByte : Option Byte := none

/-- The byte at an address of a memory, if it holds one. -/
def Memory.read : Memory → Nat → Option Byte
  | [], _ => unlistedByte
  | (k, b) :: rest, a => if k = a then some b else Memory.read rest a

/-- A listed byte put in its place by address. -/
def Memory.insert : Memory → Nat → Byte → Memory
  | [], a, v => [(a, v)]
  | (k, b) :: rest, a, v =>
    if a < k then (a, v) :: (k, b) :: rest
    else if a = k then (a, v) :: rest
    else (k, b) :: Memory.insert rest a v

/-- One byte written, in canonical form: a byte equal to what an unlisted address reads as is not listed. -/
def Memory.write (m : Memory) (a : Nat) (v : Byte) : Memory :=
  if unlistedByte = some v then m.filter (fun c => c.1 != a) else m.insert a v

/-- The canonical form: addresses strictly rising, no entry that an unlisted address already reads as. -/
def Memory.wf : Memory → Bool
  | [] => true
  | (k, b) :: rest => rest.all (fun c => decide (k < c.1)) && unlistedByte != some b && Memory.wf rest

/-! ### Words of memory -/

/-- The word at an even address, when both its bytes are written (20_memory.md R50). -/
def Memory.readWord (m : Memory) (a : Word) : Option Word :=
  match m.read a.toNat, m.read (a.toNat + 1) with
  | some lower, some upper => some (wordOfBytes lower upper)
  | _, _ => none

/-- The word at an even address written, all 16 bits. -/
def Memory.writeWord (m : Memory) (a : Word) (v : Word) : Memory :=
  (m.write a.toNat (lowerByte v)).write (a.toNat + 1) (upperByte v)

/-- Is the address odd, that is, not word aligned? (20_memory.md R54) -/
def misaligned (a : Word) : Bool := a.getLsbD 0

/-- Is the data address in the half that parameter MMIO owns, 0x8000 to 0xFFFF? (20_memory.md R57) -/
def deviceHalf (a : Word) : Bool := decide (0x8000 ≤ a.toNat)

/-- `Fetch(addr)` (20_memory.md R51). -/
def fetchWord (s : State) (addr : Word) : Except Fault Word :=
  match s.prog.readWord addr with
  | some w => .ok w
  | none => .error (.uninitialisedRead .program addr)

/-- `MemRead(addr, 2)`, its checks in the order of 20_memory.md R52. -/
def memRead (s : State) (addr : Word) : Except Fault Word :=
  if misaligned addr then .error (.misalignedData addr)
  else if deviceHalf addr then .error (.unmappedDevice addr .read)
  else match s.data.readWord addr with
    | some w => .ok w
    | none => .error (.uninitialisedRead .data addr)

/-- `MemWrite(addr, 2, v)`, its checks in the order of 20_memory.md R53. -/
def memWrite (s : State) (addr : Word) (v : Word) : Except Fault State :=
  if misaligned addr then .error (.misalignedData addr)
  else if deviceHalf addr then .error (.unmappedDevice addr .write)
  else .ok (s.setData (s.data.writeWord addr v))

/-! ### The ends of an instruction

RISCII has no exception to take: no state is saved, no address receives control (60_exceptions.md R260, R265), so there is
no operation that takes one. What stops an instruction is a model fault (R261); the return from an interrupt that is not
running is a NOP (R266). -/

/-- The return from interrupt where "interrupts are not supported (or hardware is not running an interrupt)": "the
equivalent of a NOP instruction" (45_control.md R214, 60_exceptions.md R262, R266; log entry 13). -/
def returnFromInterrupt (s : State) : State := s.advance

/-! ### Fetching an instruction -/

/-- The front of the step of 10_state.md R42, its checks in the order of 60_exceptions.md R264: alignment of the pc, the
program word, decoding. -/
def fetchInstr (s : State) : Except Fault Instr :=
  if misaligned s.pc then .error (.misalignedFetch s.pc)
  else match fetchWord s s.pc with
    | .error f => .error f
    | .ok w =>
      match decodeWord w with
      | .ok i => .ok i
      | .error _ => .error (.reservedEncoding w s.pc)

/-- A halted processor changes no register, flag, pc or memory word (10_state.md R38): it stays as it is. That the model's
step answers the same state, where the spec says that no step exists, is a DESIGN CHOICE (log entry 14). -/
def stayHalted (s : State) : Host.Outcome State Fault Refusal := .next s

end Sys2Proof.Machine
end

