-- ==== Sys2Proof/Machine/Operands.lean ====
section
/-! DEFINITION. Operand values, addresses and targets (30_encoding.md R87, R88), and the value computations of the data
operations: shifts (41_shift.md R145, R146), LBI (43_lbi.md R182) and the subtraction with its carry-out (42_arith.md
R164). -/

namespace Sys2Proof.Machine

/-! ### Immediates -/

/-- `sext_16(v, N)` (00_scope.md R10). PRESUMED (general knowledge, K2): log entry 21. -/
def sext (v : BitVec n) : Word := v.signExtend 16

/-- `zext_16(v, N)` (00_scope.md R10). -/
def zext (v : BitVec n) : Word := v.setWidth 16

/-- An offset in words made a displacement in bytes: sign extended first, then left shifted by 1 bit (30_encoding.md
R88). -/
def scaled (v : BitVec n) : Word := sext v <<< 1

/-! ### Addresses and targets, modulo 65536 (10_state.md R26, 20_memory.md R60; log entry 15) -/

/-- `EA(w)`, the effective address of LDR, STR and SWP (44_load_store.md R190). -/
def effectiveAddress (s : State) (sr1 : Reg) (ofst6 : BitVec 6) : Word := s.reg sr1 + scaled ofst6

/-- The target of JPR and JLR (45_control.md R213, R216). -/
def jumpTarget (s : State) (sr1 : Reg) (imm5 : BitVec 5) : Word := s.reg sr1 + scaled imm5

/-- The target of a taken BRC (45_control.md R211). -/
def branchTarget (s : State) (imm8 : BitVec 8) : Word := s.nextPc + scaled imm8

/-! ### Shifts -/

/-- The three shifts of a word by a distance of 0 to 15 (41_shift.md R146). PRESUMED (general knowledge, K4): log
entry 21. -/
def shiftBy (op : ShiftOp) (v : Word) (k : Nat) : Word :=
  match op with
  | .left => v <<< k
  | .rightLogical => v >>> k
  | .rightArith => v.sshiftRight k

/-- The result of a shift whose distance is a whole 16-bit value: above 15 it is parameter SHIFT_OVER's (41_shift.md
R145; log entry 6). -/
def shiftWord (op : ShiftOp) (v distance : Word) : Word :=
  if distance.toNat ≤ 15 then shiftBy op v distance.toNat else Config.shiftOver op v distance

/-- The operation SHR's flag "a" selects (41_shift.md R140). -/
def rightShift (a : Bool) : ShiftOp := if a then .rightArith else .rightLogical

/-! ### LBI with s = 1 -/

/-- The old value left shifted by 8 bits, the immediate shifted in from the right (43_lbi.md R182). -/
def shiftInByte (old : Word) (imm8 : BitVec 8) : Word := (old <<< 8) ||| zext imm8

/-! ### Subtraction -/

/-- The 17-bit sum `m + (~s) + 1` of 42_arith.md R164, `m` the minuend and `s` the subtrahend. -/
def subSum (m s : Word) : BitVec 17 := m.setWidth 17 + (~~~s).setWidth 17 + 1#17

/-- The difference, the sum modulo 65536 (42_arith.md R164). -/
def subResult (m s : Word) : Word := (subSum m s).setWidth 16

/-- The carry-out, bit 16 of the sum: set when no borrow occurred (42_arith.md R164). DEDUCED by the spec from its
condition table: log entry 24. -/
def subCarry (m s : Word) : Bool := (subSum m s).getLsbD 16

end Sys2Proof.Machine
end

