-- ==== Sys2Proof/Machine/Flags.lean ====
section
/-! DEFINITION. The flags: what a data operation writes (10_state.md R28 to R33), the branch condition that reads them
(45_control.md R212), and the common end of every data operation. -/

namespace Sys2Proof.Machine

/-- `setNZP(r)` with flag C beside it (10_state.md R29). -/
def resultFlags (r : Word) (carry : Bool) : Flags where
  N := r.msb
  Z := r == 0#16
  P := r != 0#16 && !r.msb
  C := carry

/-- `cond(n, z, p, c)` (45_control.md R212). -/
def branchCondition (n z p c : Bool) (f : Flags) : Bool :=
  ((n && f.N) || (z && f.Z) || (p && f.P)) && (!c || f.C)

/-- The end of SUB: result to DST, all four flags, pc + 2 (42_arith.md R165, R166). -/
def finishWithCarry (s : State) (dst : Reg) (r : Word) (carry : Bool) : State :=
  ((s.setReg dst r).setFlags (resultFlags r carry)).advance

/-- The end of the seven other data operations: the same with `C <- UNSPEC`, a fresh draw (10_state.md R31; log
entry 5). -/
def finishData (s : State) (dst : Reg) (r : Word) : State :=
  (finishWithCarry s dst r (Config.freeCarry s.draws)).nextDraw

end Sys2Proof.Machine
end

