-- ==== Sys2Proof/Machine/Arith.lean ====
section
/-! DEFINITION. ADD and SUB, register and immediate forms (42_arith.md R160 to R168). In SUB `x[SR1]` is the subtrahend
(R163; 90_conflicts.md C5; log entry 23). -/

namespace Sys2Proof.Machine

/-- ADD, register form (42_arith.md R161). -/
def execAddReg (dst sr1 sr2 : Reg) (s : State) : Host.Outcome State Fault Refusal :=
  .next (finishData s dst (s.reg sr1 + s.reg sr2))

/-- ADD, immediate form (42_arith.md R162). -/
def execAddImm (dst sr1 : Reg) (imm5 : BitVec 5) (s : State) : Host.Outcome State Fault Refusal :=
  .next (finishData s dst (s.reg sr1 + sext imm5))

/-- SUB, register form (42_arith.md R165). -/
def execSubReg (dst sr1 sr2 : Reg) (s : State) : Host.Outcome State Fault Refusal :=
  .next (finishWithCarry s dst (subResult (s.reg sr2) (s.reg sr1)) (subCarry (s.reg sr2) (s.reg sr1)))

/-- SUB, immediate form (42_arith.md R166). -/
def execSubImm (dst sr1 : Reg) (imm5 : BitVec 5) (s : State) : Host.Outcome State Fault Refusal :=
  .next (finishWithCarry s dst (subResult (sext imm5) (s.reg sr1)) (subCarry (sext imm5) (s.reg sr1)))

end Sys2Proof.Machine
end

