-- ==== Sys2Proof/Machine/Bitwise.lean ====
section
/-! DEFINITION. AND, ORR and XOR, register and immediate forms (40_bitwise.md R120 to R126). -/

namespace Sys2Proof.Machine

/-- AND, register form (40_bitwise.md R121). -/
def execAndReg (dst sr1 sr2 : Reg) (s : State) : Host.Outcome State Fault Refusal :=
  .next (finishData s dst (s.reg sr1 &&& s.reg sr2))

/-- AND, immediate form (40_bitwise.md R122). -/
def execAndImm (dst sr1 : Reg) (imm5 : BitVec 5) (s : State) : Host.Outcome State Fault Refusal :=
  .next (finishData s dst (s.reg sr1 &&& sext imm5))

/-- ORR, register form (40_bitwise.md R123). -/
def execOrrReg (dst sr1 sr2 : Reg) (s : State) : Host.Outcome State Fault Refusal :=
  .next (finishData s dst (s.reg sr1 ||| s.reg sr2))

/-- ORR, immediate form (40_bitwise.md R124). -/
def execOrrImm (dst sr1 : Reg) (imm5 : BitVec 5) (s : State) : Host.Outcome State Fault Refusal :=
  .next (finishData s dst (s.reg sr1 ||| sext imm5))

/-- XOR, register form (40_bitwise.md R125). -/
def execXorReg (dst sr1 sr2 : Reg) (s : State) : Host.Outcome State Fault Refusal :=
  .next (finishData s dst (s.reg sr1 ^^^ s.reg sr2))

/-- XOR, immediate form (40_bitwise.md R126). -/
def execXorImm (dst sr1 : Reg) (imm5 : BitVec 5) (s : State) : Host.Outcome State Fault Refusal :=
  .next (finishData s dst (s.reg sr1 ^^^ sext imm5))

end Sys2Proof.Machine
end

