-- ==== Sys2Proof/Machine/Control.lean ====
section
/-! DEFINITION. BRC, JPR, the return from interrupt and JLR (45_control.md R210 to R221). There is no delay slot (R218;
log entry 20). -/

namespace Sys2Proof.Machine

/-- BRC (45_control.md R211, R212). -/
def execBrc (n z p c : Bool) (imm8 : BitVec 8) (s : State) : Host.Outcome State Fault Refusal :=
  .next (s.setPc (if branchCondition n z p c s.flags then branchTarget s imm8 else s.nextPc))

/-- JPR with flag r = 0 (45_control.md R213). An odd target faults at the next fetch, not here. -/
def execJpr (sr1 : Reg) (imm5 : BitVec 5) (s : State) : Host.Outcome State Fault Refusal :=
  .next (s.setPc (jumpTarget s sr1 imm5))

/-- RTI, JPR with flag r = 1 (45_control.md R214). -/
def execRti (s : State) : Host.Outcome State Fault Refusal :=
  .next (returnFromInterrupt s)

/-- JLR: the target is computed from the old `x[SR1]` (45_control.md R216). -/
def execJlr (dst sr1 : Reg) (imm5 : BitVec 5) (s : State) : Host.Outcome State Fault Refusal :=
  .next ((s.setReg dst s.nextPc).setPc (jumpTarget s sr1 imm5))

end Sys2Proof.Machine
end

