-- ==== Sys2Proof/Machine/Lbi.lean ====
section
/-! DEFINITION. LBI in its two modes (43_lbi.md R180 to R183). -/

namespace Sys2Proof.Machine

/-- LBI with s = 0 (43_lbi.md R181). -/
def execLbi (dst : Reg) (imm8 : BitVec 8) (s : State) : Host.Outcome State Fault Refusal :=
  .next (finishData s dst (sext imm8))

/-- LBI with s = 1 (43_lbi.md R182). -/
def execLbiShift (dst : Reg) (imm8 : BitVec 8) (s : State) : Host.Outcome State Fault Refusal :=
  .next (finishData s dst (shiftInByte (s.reg dst) imm8))

end Sys2Proof.Machine
end

