-- ==== Sys2Proof/Machine/LoadStore.lean ====
section
/-! DEFINITION. LDR and STR (44_load_store.md R190 to R193). "Memory" is the data address space (10_state.md R36; log
entry 18). Neither writes a flag (R28). -/

namespace Sys2Proof.Machine

/-- LDR (44_load_store.md R191). -/
def execLdr (dst sr1 : Reg) (ofst6 : BitVec 6) (s : State) : Host.Outcome State Fault Refusal :=
  match memRead s (effectiveAddress s sr1 ofst6) with
  | .ok v => .next (s.setReg dst v).advance
  | .error f => .fault f

/-- STR (44_load_store.md R192). -/
def execStr (src sr1 : Reg) (ofst6 : BitVec 6) (s : State) : Host.Outcome State Fault Refusal :=
  match memWrite s (effectiveAddress s sr1 ofst6) (s.reg src) with
  | .ok t => .next t.advance
  | .error f => .fault f

end Sys2Proof.Machine
end

