-- ==== Sys2Proof/Machine/NopHlt.lean ====
section
/-! DEFINITION. NOP and HLT (47_nop_hlt.md R250 to R253). -/

namespace Sys2Proof.Machine

/-- NOP: only the pc advances (47_nop_hlt.md R250; 90_conflicts.md C6). -/
def execNop (s : State) : Host.Outcome State Fault Refusal :=
  .next s.advance

/-- HLT: `halted <- 1`, the pc stays at the HLT (47_nop_hlt.md R252; log entry 14). -/
def execHlt (s : State) : Host.Outcome State Fault Refusal :=
  .next (s.setHalted true)

end Sys2Proof.Machine
end

