-- ==== Sys2Proof/Machine/Shift.lean ====
section
/-! DEFINITION. SHL and SHR, register and immediate forms (41_shift.md R140 to R147). The value shifted is `x[SR1]`, the
distance the second operand (R140, decision D4; log entry 17). -/

namespace Sys2Proof.Machine

/-- SHL, register form (41_shift.md R141). -/
def execShlReg (dst sr1 sr2 : Reg) (s : State) : Host.Outcome State Fault Refusal :=
  .next (finishData s dst (shiftWord .left (s.reg sr1) (s.reg sr2)))

/-- SHL, immediate form (41_shift.md R142). -/
def execShlImm (dst sr1 : Reg) (imm4 : BitVec 4) (s : State) : Host.Outcome State Fault Refusal :=
  .next (finishData s dst (shiftWord .left (s.reg sr1) (zext imm4)))

/-- SHR, register form (41_shift.md R143). -/
def execShrReg (dst sr1 : Reg) (a : Bool) (sr2 : Reg) (s : State) : Host.Outcome State Fault Refusal :=
  .next (finishData s dst (shiftWord (rightShift a) (s.reg sr1) (s.reg sr2)))

/-- SHR, immediate form (41_shift.md R144). -/
def execShrImm (dst sr1 : Reg) (a : Bool) (imm4 : BitVec 4) (s : State) : Host.Outcome State Fault Refusal :=
  .next (finishData s dst (shiftWord (rightShift a) (s.reg sr1) (zext imm4)))

end Sys2Proof.Machine
end

