-- ==== Sys2Proof/Machine/Swap.lean ====
section
/-! DEFINITION. SWP (46_swap.md R240 to R242): `x[DST]` is exchanged, `x[SR1]` only addresses (90_conflicts.md C1; log
entry 23). -/

namespace Sys2Proof.Machine

/-- SWP: the read precedes the write to the same word, and both are one step (46_swap.md R241). -/
def execSwp (dst sr1 : Reg) (ofst6 : BitVec 6) (s : State) : Host.Outcome State Fault Refusal :=
  match memRead s (effectiveAddress s sr1 ofst6) with
  | .error f => .fault f
  | .ok m =>
    match memWrite s (effectiveAddress s sr1 ofst6) (s.reg dst) with
    | .error f => .fault f
    | .ok t => .next (t.setReg dst m).advance

end Sys2Proof.Machine
end

