-- ==== Sys2Proof/Machine/Dispatch.lean ====
section
/-! DEFINITION. The dispatch: each instruction's meaning, one arm per constructor of Instr. -/

namespace Sys2Proof.Machine

def exec (i : Instr) (s : State) : Host.Outcome State Fault Refusal :=
  match i with
  | .andReg dst sr1 sr2 => Sys2Proof.Machine.execAndReg dst sr1 sr2 s
  | .andImm dst sr1 imm5 => Sys2Proof.Machine.execAndImm dst sr1 imm5 s
  | .orrReg dst sr1 sr2 => Sys2Proof.Machine.execOrrReg dst sr1 sr2 s
  | .orrImm dst sr1 imm5 => Sys2Proof.Machine.execOrrImm dst sr1 imm5 s
  | .xorReg dst sr1 sr2 => Sys2Proof.Machine.execXorReg dst sr1 sr2 s
  | .xorImm dst sr1 imm5 => Sys2Proof.Machine.execXorImm dst sr1 imm5 s
  | .shlReg dst sr1 sr2 => Sys2Proof.Machine.execShlReg dst sr1 sr2 s
  | .shlImm dst sr1 imm4 => Sys2Proof.Machine.execShlImm dst sr1 imm4 s
  | .shrReg dst sr1 a sr2 => Sys2Proof.Machine.execShrReg dst sr1 a sr2 s
  | .shrImm dst sr1 a imm4 => Sys2Proof.Machine.execShrImm dst sr1 a imm4 s
  | .addReg dst sr1 sr2 => Sys2Proof.Machine.execAddReg dst sr1 sr2 s
  | .addImm dst sr1 imm5 => Sys2Proof.Machine.execAddImm dst sr1 imm5 s
  | .subReg dst sr1 sr2 => Sys2Proof.Machine.execSubReg dst sr1 sr2 s
  | .subImm dst sr1 imm5 => Sys2Proof.Machine.execSubImm dst sr1 imm5 s
  | .lbi dst imm8 => Sys2Proof.Machine.execLbi dst imm8 s
  | .lbiShift dst imm8 => Sys2Proof.Machine.execLbiShift dst imm8 s
  | .ldr dst sr1 ofst6 => Sys2Proof.Machine.execLdr dst sr1 ofst6 s
  | .str src sr1 ofst6 => Sys2Proof.Machine.execStr src sr1 ofst6 s
  | .brc n z p c imm8 => Sys2Proof.Machine.execBrc n z p c imm8 s
  | .jpr sr1 imm5 => Sys2Proof.Machine.execJpr sr1 imm5 s
  | .rti => Sys2Proof.Machine.execRti s
  | .jlr dst sr1 imm5 => Sys2Proof.Machine.execJlr dst sr1 imm5 s
  | .swp dst sr1 ofst6 => Sys2Proof.Machine.execSwp dst sr1 ofst6 s
  | .nop => Sys2Proof.Machine.execNop s
  | .hlt => Sys2Proof.Machine.execHlt s

end Sys2Proof.Machine
end

