-- ==== Sys2Proof/Machine/Step.lean ====
section
/-! DEFINITION. The step of the one agent (10_state.md R42), and the placing of a program word by the host
(70_reset_and_hazards.md R293). -/

namespace Sys2Proof.Machine

/-- One step (10_state.md R42): a halted processor stays as it is; otherwise one instruction is fetched, decoded and
executed, whole. -/
def step (s : State) : Host.Outcome State Fault Refusal :=
  if s.halted then stayHalted s
  else match fetchInstr s with
    | .error f => .fault f
    | .ok i => exec i s

/-- The host's placing of an instruction word where the next step fetches (log entry 19): the word stands in the program
space at pc, and the processor is not halted. -/
def State.withFetchWord (s : State) (nbits w : Nat) : State :=
  (s.setProg (s.prog.writeWord s.pc (BitVec.ofNat 16 (w % 2 ^ nbits)))).setHalted false

end Sys2Proof.Machine
end

