-- ==== Sys2Proof/Safety.lean ====
section
/-! DEFINITION. The terms claims are stated in: what describes a result, what an instruction leaves alone, which
instructions and registers a rule of the spec names, and the invariant of a run. Each is written from the spec's words
and not from the meanings. -/

namespace Sys2Proof.Safety

open Sys2Proof.Machine

/-! ### What the flags say -/

/-- The processor flags N, Z and P describe the word read as int16 (10_state.md R27). -/
structure Describes (f : Flags) (r : Word) : Prop where
  negative : f.N = true ↔ r.toInt < 0
  zero : f.Z = true ↔ r.toInt = 0
  positive : f.P = true ↔ 0 < r.toInt

/-- Exactly one of N, Z and P is 1 (10_state.md R30). -/
def ExactlyOne (f : Flags) : Prop :=
  (f.N = true ∧ f.Z = false ∧ f.P = false) ∨ (f.N = false ∧ f.Z = true ∧ f.P = false) ∨
    (f.N = false ∧ f.Z = false ∧ f.P = true)

/-- Flag C of `t` is a fresh draw taken in `s` (10_state.md R31): nothing is known of its value. -/
def FreshCarry (s t : State) : Prop :=
  t.flags.C = Config.freeCarry s.draws ∧ t.draws = s.draws + 1

/-- The branch condition in words: the instruction and the processor have a matching set flag among n, z, p, and if
instruction flag c is set the processor's C is set (45_control.md R212). -/
def BranchTaken (n z p c : Bool) (f : Flags) : Prop :=
  ((n = true ∧ f.N = true) ∨ (z = true ∧ f.Z = true) ∨ (p = true ∧ f.P = true)) ∧ (c = true → f.C = true)

/-! ### What is left alone -/

/-- Every general register holds what it held. -/
def SameRegs (s t : State) : Prop := ∀ r, t.reg r = s.reg r

/-- Every general register but one holds what it held. -/
def SameRegsBut (d : Reg) (s t : State) : Prop := ∀ r, r ≠ d → t.reg r = s.reg r

/-- Every byte of the program space reads as it did. -/
def SameProgram (s t : State) : Prop := ∀ a : Nat, t.prog.read a = s.prog.read a

/-- Every byte of data memory reads as it did. -/
def SameData (s t : State) : Prop := ∀ a : Nat, t.data.read a = s.data.read a

/-- Every byte of data memory outside the word at `a` reads as it did. -/
def SameDataBut (a : Word) (s t : State) : Prop :=
  ∀ b : Nat, b ≠ a.toNat → b ≠ a.toNat + 1 → t.data.read b = s.data.read b

/-- The pc has moved to the next instruction, two addresses on, modulo 65536 (10_state.md R25, R26). -/
def Advanced (s t : State) : Prop := t.pc.toNat = (s.pc.toNat + 2) % 65536

/-- What a data operation leaves alone: every register but DST, all of memory, the halted bit; and its pc. -/
structure DataOpFrame (dst : Reg) (s t : State) : Prop where
  regs : SameRegsBut dst s t
  program : SameProgram s t
  data : SameData s t
  halted : t.halted = s.halted
  pc : Advanced s t

/-- What LDR, STR and SWP leave alone apart from a register and a word of data memory: the flags, the program space, the
halted bit, the draws; and their pc. -/
structure MemoryOpFrame (s t : State) : Prop where
  flags : t.flags = s.flags
  program : SameProgram s t
  halted : t.halted = s.halted
  draws : t.draws = s.draws
  pc : Advanced s t

/-- A data operation other than SUB completes: its result is as said, N, Z and P describe the result, C is a fresh draw,
and the frame holds (10_state.md R28 to R31). -/
def CompletesDataOp (i : Instr) (dst : Reg) (s : State) (result : Word → Prop) : Prop :=
  ∃ t, exec i s = .next t ∧ result (t.reg dst) ∧ Describes t.flags (t.reg dst) ∧ FreshCarry s t ∧ DataOpFrame dst s t

/-- A SUB of `sub` from `min` completes: the result is the difference modulo 65536, N, Z and P describe it, C says that
no borrow occurred, no draw is taken, and the frame holds (42_arith.md R163 to R166). -/
def CompletesSub (i : Instr) (dst : Reg) (s : State) (min sub : Word) : Prop :=
  ∃ t, exec i s = .next t ∧ ((t.reg dst).toNat : Int) = ((min.toNat : Int) - sub.toNat) % 65536 ∧
    Describes t.flags (t.reg dst) ∧ (t.flags.C = true ↔ sub.toNat ≤ min.toNat) ∧ t.draws = s.draws ∧ DataOpFrame dst s t

/-- The same change made to the state an outcome goes on in. -/
def mapNext (g : State → State) : Host.Outcome State Fault Refusal → Host.Outcome State Fault Refusal
  | .next t => .next (g t)
  | .fault f => .fault f
  | .refused r => .refused r

/-- A BRC of the given flags at `t` goes to its target if the relation holds and to the next instruction if not, and
changes nothing but the pc. -/
def BranchesIff (n z p c : Bool) (t : State) (relation : Prop) : Prop :=
  ∀ imm8 : BitVec 8,
    (relation → exec (.brc n z p c imm8) t =
      .next (t.setPc (BitVec.ofInt 16 ((t.pc.toNat : Int) + 2 + 2 * imm8.toInt)))) ∧
    (¬ relation → exec (.brc n z p c imm8) t = .next (t.setPc (BitVec.ofInt 16 ((t.pc.toNat : Int) + 2))))

/-! ### The instructions a rule names -/

/-- The eight instructions of 10_state.md R28, the data operations, in all their forms. -/
def isDataOp : Instr → Bool
  | .andReg _ _ _ | .andImm _ _ _ | .orrReg _ _ _ | .orrImm _ _ _ | .xorReg _ _ _ | .xorImm _ _ _
  | .shlReg _ _ _ | .shlImm _ _ _ | .shrReg _ _ _ _ | .shrImm _ _ _ _ | .addReg _ _ _ | .addImm _ _ _
  | .subReg _ _ _ | .subImm _ _ _ | .lbi _ _ | .lbiShift _ _ => true
  | .ldr _ _ _ | .str _ _ _ | .brc _ _ _ _ _ | .jpr _ _ | .rti | .jlr _ _ _ | .swp _ _ _ | .nop | .hlt => false

/-- The forms of SUB, after which alone C is meaningful (10_state.md R31). -/
def isSub : Instr → Bool
  | .subReg _ _ _ | .subImm _ _ _ => true
  | .andReg _ _ _ | .andImm _ _ _ | .orrReg _ _ _ | .orrImm _ _ _ | .xorReg _ _ _ | .xorImm _ _ _
  | .shlReg _ _ _ | .shlImm _ _ _ | .shrReg _ _ _ _ | .shrImm _ _ _ _ | .addReg _ _ _ | .addImm _ _ _
  | .lbi _ _ | .lbiShift _ _ | .ldr _ _ _ | .str _ _ _ | .brc _ _ _ _ _ | .jpr _ _ | .rti | .jlr _ _ _
  | .swp _ _ _ | .nop | .hlt => false

/-- LDR, STR and SWP, which alone reach the data space (10_state.md R36). -/
def reachesData : Instr → Bool
  | .ldr _ _ _ | .str _ _ _ | .swp _ _ _ => true
  | .andReg _ _ _ | .andImm _ _ _ | .orrReg _ _ _ | .orrImm _ _ _ | .xorReg _ _ _ | .xorImm _ _ _
  | .shlReg _ _ _ | .shlImm _ _ _ | .shrReg _ _ _ _ | .shrImm _ _ _ _ | .addReg _ _ _ | .addImm _ _ _
  | .subReg _ _ _ | .subImm _ _ _ | .lbi _ _ | .lbiShift _ _ | .brc _ _ _ _ _ | .jpr _ _ | .rti | .jlr _ _ _
  | .nop | .hlt => false

/-- The register an instruction writes, `x[DST]`, if it writes one (10_state.md R23). -/
def destination : Instr → Option Reg
  | .andReg d _ _ | .andImm d _ _ | .orrReg d _ _ | .orrImm d _ _ | .xorReg d _ _ | .xorImm d _ _
  | .shlReg d _ _ | .shlImm d _ _ | .shrReg d _ _ _ | .shrImm d _ _ _ | .addReg d _ _ | .addImm d _ _
  | .subReg d _ _ | .subImm d _ _ | .lbi d _ | .lbiShift d _ | .ldr d _ _ | .jlr d _ _ | .swp d _ _ => some d
  | .str _ _ _ | .brc _ _ _ _ _ | .jpr _ _ | .rti | .nop | .hlt => none

/-- The registers an instruction reads as sources (10_state.md R23). -/
def sources : Instr → List Reg
  | .andReg _ a b | .orrReg _ a b | .xorReg _ a b | .shlReg _ a b | .shrReg _ a _ b | .addReg _ a b
  | .subReg _ a b => [a, b]
  | .andImm _ a _ | .orrImm _ a _ | .xorImm _ a _ | .shlImm _ a _ | .shrImm _ a _ _ | .addImm _ a _
  | .subImm _ a _ => [a]
  | .lbi _ _ => []
  | .lbiShift d _ => [d]
  | .ldr _ a _ => [a]
  | .str r a _ => [r, a]
  | .swp d a _ => [d, a]
  | .jpr a _ => [a]
  | .jlr _ a _ => [a]
  | .brc _ _ _ _ _ | .rti | .nop | .hlt => []

/-! ### The invariant of a run -/

/-- The words of a memory are whole: the two bytes at an even address hold values together or not at all, because every
access is a whole aligned word (20_memory.md R50, R54). -/
def WholeWords (m : Memory) : Prop := ∀ k : Nat, (m.read (2 * k)).isSome = (m.read (2 * k + 1)).isSome

/-- Every listed byte lies below a bound. -/
def Below (bound : Nat) (m : Memory) : Prop := ∀ c ∈ m, c.1 < bound

/-- The invariant: both memories are in canonical form and made of whole words, the program space lies in its 64 KB
(10_state.md R34) and data memory in the generic half (20_memory.md R57). -/
structure Inv (s : State) : Prop where
  progForm : s.prog.wf = true
  dataForm : s.data.wf = true
  progWords : WholeWords s.prog
  dataWords : WholeWords s.data
  progRange : Below 0x10000 s.prog
  dataRange : Below 0x8000 s.data

end Sys2Proof.Safety
end

