-- ==== Sys2Proof/Certificates/Slice0/Obligations.lean ====
section
/-! DEFINITION. The statements for the provers, from the numbered rules of spec/. A statement holds for every state and
every operand; the terms are those of Safety.lean. -/

open Sys2Proof Sys2Proof.Machine Sys2Proof.Safety

/-! ### Encoding -/

/-- Decoding the bytes of any instruction gives it back, and the bytes that follow (30_encoding.md R81, R86). -/
def Obligations.DecodeOfEncode : Prop :=
  ∀ (i : Instr) (rest : List Byte), decode (encode i ++ rest) = .ok (i, rest)

/-- A word that decodes is the word of the instruction it decodes to: no fixed bit is ignored and no two words are the
same instruction (30_encoding.md R86, R90). -/
def Obligations.EncodeOfDecode : Prop :=
  ∀ (w : Word) (i : Instr), decodeWord w = .ok i → encodeWord i = w

/-- The decode procedure of 30_encoding.md R86 and the match and mask table of R85 agree on every word: a word decodes to
the form whose row selects it, and a word that no row selects is rejected as reserved (R90). -/
def Obligations.DecodeFollowsOpcodeTable : Prop :=
  ∀ w : Word,
    (∀ i, decodeWord w = .ok i → i.row.selects w = true) ∧
    (wellFormedWord w = true → ∃ i, decodeWord w = .ok i) ∧
    (wellFormedWord w = false → decodeWord w = .error (.reserved w))

/-- "The rows are pairwise disjoint": no word has the form of two rows (30_encoding.md R85). -/
def Obligations.OpcodeRowsDisjoint : Prop :=
  ∀ (w : Word) (r₁ r₂ : Row), r₁ ∈ opcodeRows → r₂ ∈ opcodeRows →
    r₁.selects w = true → r₂.selects w = true → r₁ = r₂

/-- Of the words with opcode 0110 and bit 5 set, only 0x6020 is the return from interrupt; the others are reserved
(30_encoding.md R91). -/
def Obligations.OnlyOneReturnFromInterruptWord : Prop :=
  ∀ w : Word, w.extractLsb' 12 4 = 0b0110#4 → w.getLsbD 5 = true →
    (w = 0x6020#16 → decodeWord w = .ok .rti) ∧ (w ≠ 0x6020#16 → decodeWord w = .error (.reserved w))

/-- Words written out from the patterns of 30_encoding.md R81, one of each family, and reserved ones. -/
def Obligations.SampleWordsDecode : Prop :=
  decodeWord 0b1111000001000010#16 = .ok (.andReg 0 1 2) ∧        -- 1111-DST-SR1-000-SR2
  decodeWord 0b1110000001111111#16 = .ok (.orrImm 0 1 0b11111) ∧  -- 1110-DST-SR1-1-5bImm
  decodeWord 0b1100000101101111#16 = .ok (.shlImm 0 5 15) ∧       -- 1100-DST-SR1-10-4bIm
  decodeWord 0b1101000011010010#16 = .ok (.shrReg 0 3 true 2) ∧   -- 1101-DST-SR1-0-a-0-SR2
  decodeWord 0b1001000001100000#16 = .ok (.subImm 0 1 0) ∧        -- 1001-DST-SR1-1-5bImm
  decodeWord 0b1010111110101011#16 = .ok (.lbiShift 7 0xAB) ∧     -- 1010-DST-s-8bImmVal
  decodeWord 0b0101000001111111#16 = .ok (.ldr 0 1 0b111111) ∧    -- 0101-DST-SR1-6bOfst
  decodeWord 0b0010101100000101#16 = .ok (.brc true false true true 5) ∧ -- 0010-nzpc-8bImmVal
  decodeWord 0b0111110111000000#16 = .ok (.jlr 6 7 0) ∧           -- 0111-DST-SR1-0-5bImm
  decodeWord 0b0001010001000001#16 = .ok (.swp 2 1 1) ∧           -- 0001-DST-SR1-6bOfst
  decodeWord 0b0011000000000000#16 = .ok .hlt ∧
  decodeWord 0b0111000000100000#16 = .error (.reserved 0x7020#16) ∧ -- JLR with bit 5 set
  decode [] = .error .truncated

/-! ### The step -/

/-- A step runs the decoded instruction: in a processor that is not halted, with an even pc, when the two bytes there
decode to an instruction, the step is that instruction's execution and nothing more (10_state.md R42). -/
def Obligations.StepRunsDecodedInstruction : Prop :=
  ∀ (s : State) (b₀ b₁ : Byte) (i : Instr), s.halted = false → s.pc.toNat % 2 = 0 →
    s.prog.read s.pc.toNat = some b₀ → s.prog.read (s.pc.toNat + 1) = some b₁ →
    decode [b₀, b₁] = .ok (i, []) → step s = exec i s

/-- What stops a step before execution, in the order of 60_exceptions.md R264 (2) to (4): an odd pc, an unwritten program
word, a reserved encoding. -/
def Obligations.StepStopsBeforeExecution : Prop :=
  ∀ s : State, s.halted = false →
    (s.pc.toNat % 2 = 1 → step s = .fault (.misalignedFetch s.pc)) ∧
    (s.pc.toNat % 2 = 0 → s.prog.readWord s.pc = none → step s = .fault (.uninitialisedRead .program s.pc)) ∧
    (∀ w, s.pc.toNat % 2 = 0 → s.prog.readWord s.pc = some w → wellFormedWord w = false →
      step s = .fault (.reservedEncoding w s.pc))

/-- A halted processor changes nothing (10_state.md R38). That a step of it answers the same state is the model's choice:
log entry 14. -/
def Obligations.HaltedProcessorStays : Prop :=
  ∀ s : State, s.halted = true → step s = .next s

/-- Only HLT halts and nothing clears the halted bit (10_state.md R38). -/
def Obligations.OnlyHltHalts : Prop :=
  (∀ s t : State, step s = .next t → s.halted = false → t.halted = true → fetchInstr s = .ok .hlt) ∧
  (∀ s t : State, step s = .next t → s.halted = true → t.halted = true) ∧
  (∀ (i : Instr) (s t : State), exec i s = .next t → s.halted = true → t.halted = true)

/-- The state after reset: running (10_state.md R43), nothing placed in either memory (log entries 7, 19); pc 0x0000 (log
entry 3), registers 0 (log entry 1), flags 0 (log entry 2) and no draw taken (log entry 5) are the model's choices. -/
def Obligations.ResetState : Prop :=
  State.reset.halted = false ∧ State.reset.pc = 0x0000#16 ∧ (∀ r, State.reset.reg r = 0x0000#16) ∧
  State.reset.flags = ⟨false, false, false, false⟩ ∧ State.reset.draws = 0 ∧
  (∀ a, State.reset.prog.readWord a = none) ∧ (∀ a, State.reset.data.readWord a = none)

/-- The invariant holds after reset. -/
def Obligations.ResetInvariant : Prop := Inv State.reset

/-- Every step keeps the invariant: memories in canonical form and made of whole words, the program space within its 64 KB
and data memory within its generic half (10_state.md R34, 20_memory.md R50, R54, R57). -/
def Obligations.StepKeepsInvariant : Prop :=
  ∀ s t : State, Inv s → step s = .next t → Inv t

/-- No instruction and no step writes the program address space (20_memory.md R66). -/
def Obligations.StepKeepsProgram : Prop :=
  (∀ s t : State, step s = .next t → t.prog = s.prog) ∧
  (∀ (i : Instr) (s t : State), exec i s = .next t → t.prog = s.prog)

/-! ### Data operations -/

/-- AND, both forms, bit by bit (40_bitwise.md R120 to R122). C is a free value (log entry 5). -/
def Obligations.AndResult : Prop :=
  ∀ (s : State) (dst sr1 : Reg),
    (∀ sr2 : Reg, CompletesDataOp (.andReg dst sr1 sr2) dst s (fun r =>
      ∀ k, r.getLsbD k = ((s.reg sr1).getLsbD k && (s.reg sr2).getLsbD k))) ∧
    (∀ imm5 : BitVec 5, CompletesDataOp (.andImm dst sr1 imm5) dst s (fun r =>
      ∀ k, r.getLsbD k = ((s.reg sr1).getLsbD k && (BitVec.ofInt 16 imm5.toInt).getLsbD k)))

/-- ORR, both forms, bit by bit (40_bitwise.md R120, R123, R124). C is a free value (log entry 5). -/
def Obligations.OrrResult : Prop :=
  ∀ (s : State) (dst sr1 : Reg),
    (∀ sr2 : Reg, CompletesDataOp (.orrReg dst sr1 sr2) dst s (fun r =>
      ∀ k, r.getLsbD k = ((s.reg sr1).getLsbD k || (s.reg sr2).getLsbD k))) ∧
    (∀ imm5 : BitVec 5, CompletesDataOp (.orrImm dst sr1 imm5) dst s (fun r =>
      ∀ k, r.getLsbD k = ((s.reg sr1).getLsbD k || (BitVec.ofInt 16 imm5.toInt).getLsbD k)))

/-- XOR, both forms, bit by bit (40_bitwise.md R120, R125, R126). C is a free value (log entry 5). -/
def Obligations.XorResult : Prop :=
  ∀ (s : State) (dst sr1 : Reg),
    (∀ sr2 : Reg, CompletesDataOp (.xorReg dst sr1 sr2) dst s (fun r =>
      ∀ k, r.getLsbD k = ((s.reg sr1).getLsbD k != (s.reg sr2).getLsbD k))) ∧
    (∀ imm5 : BitVec 5, CompletesDataOp (.xorImm dst sr1 imm5) dst s (fun r =>
      ∀ k, r.getLsbD k = ((s.reg sr1).getLsbD k != (BitVec.ofInt 16 imm5.toInt).getLsbD k)))

/-- SHL and SHR, immediate forms: the three shifts as numbers, for each of the sixteen distances (41_shift.md R142, R144,
R146). C is a free value (log entry 5). -/
def Obligations.ShiftImmediateResult : Prop :=
  ∀ (s : State) (dst sr1 : Reg) (imm4 : BitVec 4),
    CompletesDataOp (.shlImm dst sr1 imm4) dst s (fun r =>
      r.toNat = (s.reg sr1).toNat * 2 ^ imm4.toNat % 65536) ∧
    CompletesDataOp (.shrImm dst sr1 false imm4) dst s (fun r =>
      r.toNat = (s.reg sr1).toNat / 2 ^ imm4.toNat) ∧
    CompletesDataOp (.shrImm dst sr1 true imm4) dst s (fun r =>
      r.toInt = (s.reg sr1).toInt / 2 ^ imm4.toNat)

/-- SHL and SHR, register forms, at a distance of 0 to 15 (41_shift.md R141, R143, R145, R146). C is a free value (log
entry 5); which operand is the distance is decision D4 (log entry 17). -/
def Obligations.ShiftRegisterResult : Prop :=
  ∀ (s : State) (dst sr1 sr2 : Reg), (s.reg sr2).toNat ≤ 15 →
    CompletesDataOp (.shlReg dst sr1 sr2) dst s (fun r =>
      r.toNat = (s.reg sr1).toNat * 2 ^ (s.reg sr2).toNat % 65536) ∧
    CompletesDataOp (.shrReg dst sr1 false sr2) dst s (fun r =>
      r.toNat = (s.reg sr1).toNat / 2 ^ (s.reg sr2).toNat) ∧
    CompletesDataOp (.shrReg dst sr1 true sr2) dst s (fun r =>
      r.toInt = (s.reg sr1).toInt / 2 ^ (s.reg sr2).toNat)

/-- SHL and SHR, register forms, at a distance of 16 or more: the result is parameter SHIFT_OVER's, a free value of the
operation, the value and the distance alone, and it is written to DST and sets N, Z and P (41_shift.md R145). That the
parameter stands in place of the default fault is the model's choice: log entry 6. -/
def Obligations.ShiftRegisterOverDistance : Prop :=
  ∀ (s : State) (dst sr1 sr2 : Reg), 16 ≤ (s.reg sr2).toNat →
    CompletesDataOp (.shlReg dst sr1 sr2) dst s (fun r =>
      r = Config.shiftOver .left (s.reg sr1) (s.reg sr2)) ∧
    CompletesDataOp (.shrReg dst sr1 false sr2) dst s (fun r =>
      r = Config.shiftOver .rightLogical (s.reg sr1) (s.reg sr2)) ∧
    CompletesDataOp (.shrReg dst sr1 true sr2) dst s (fun r =>
      r = Config.shiftOver .rightArith (s.reg sr1) (s.reg sr2))

/-- ADD, both forms: the sum modulo 65536 (42_arith.md R160 to R162). C is a free value (log entry 5). -/
def Obligations.AddResult : Prop :=
  ∀ (s : State) (dst sr1 : Reg),
    (∀ sr2 : Reg, CompletesDataOp (.addReg dst sr1 sr2) dst s (fun r =>
      r.toNat = ((s.reg sr1).toNat + (s.reg sr2).toNat) % 65536)) ∧
    (∀ imm5 : BitVec 5, CompletesDataOp (.addImm dst sr1 imm5) dst s (fun r =>
      (r.toNat : Int) = ((s.reg sr1).toNat + imm5.toInt) % 65536))

/-- SUB, both forms: the second operand minus `x[SR1]` modulo 65536, C set exactly when no borrow occurred (42_arith.md
R163 to R166). -/
def Obligations.SubResult : Prop :=
  ∀ (s : State) (dst sr1 : Reg),
    (∀ sr2 : Reg, CompletesSub (.subReg dst sr1 sr2) dst s (s.reg sr2) (s.reg sr1)) ∧
    (∀ imm5 : BitVec 5, CompletesSub (.subImm dst sr1 imm5) dst s (BitVec.ofInt 16 imm5.toInt) (s.reg sr1))

/-- LBI: with s = 0 the sign-extended immediate, with s = 1 the low byte of the old value above the immediate (43_lbi.md
R181, R182). C is a free value (log entry 5). -/
def Obligations.LbiResult : Prop :=
  ∀ (s : State) (dst : Reg) (imm8 : BitVec 8),
    CompletesDataOp (.lbi dst imm8) dst s (fun r => r.toInt = imm8.toInt) ∧
    CompletesDataOp (.lbiShift dst imm8) dst s (fun r =>
      r.toNat = (s.reg dst).toNat % 256 * 256 + imm8.toNat)

/-- LBI with the high byte, then LBI with s = 1 and the low byte, put any 16-bit constant in a register, and the flags
after the pair describe it (43_lbi.md R183). -/
def Obligations.ConstantInTwoInstructions : Prop :=
  ∀ (s : State) (dst : Reg) (K : Word), ∃ t u : State,
    exec (.lbi dst (K.extractLsb' 8 8)) s = .next t ∧
    exec (.lbiShift dst (K.extractLsb' 0 8)) t = .next u ∧
    (t.reg dst).toInt = (K.extractLsb' 8 8).toInt ∧ (t.reg dst).toNat % 256 = K.toNat / 256 ∧
    u.reg dst = K ∧ Describes u.flags K

/-! ### Flags -/

/-- `setNZP(r)`: after a data operation N, Z and P are what 10_state.md R29 says of the word in DST, in each of its ways of
saying it. -/
def Obligations.FlagsFollowResult : Prop :=
  ∀ (i : Instr) (s t : State) (d : Reg), isDataOp i = true → destination i = some d → exec i s = .next t →
    (t.flags.N = (t.reg d).getLsbD 15) ∧
    (t.flags.N = true ↔ (t.reg d).toInt < 0) ∧ (t.flags.N = true ↔ 0x8000 ≤ (t.reg d).toNat) ∧
    (t.flags.Z = true ↔ (t.reg d).toNat = 0) ∧
    (t.flags.P = true ↔ (t.reg d ≠ 0#16 ∧ (t.reg d).getLsbD 15 = false)) ∧
    (t.flags.P = true ↔ 0 < (t.reg d).toInt) ∧
    (t.flags.P = true ↔ 1 ≤ (t.reg d).toNat ∧ (t.reg d).toNat ≤ 0x7FFF)

/-- After any data operation exactly one of N, Z and P is 1 (10_state.md R30); an instruction that is none leaves the
property as it was. -/
def Obligations.ExactlyOneOfNZP : Prop :=
  (∀ (i : Instr) (s t : State), isDataOp i = true → exec i s = .next t → ExactlyOne t.flags) ∧
  (∀ (i : Instr) (s t : State), isDataOp i = false → exec i s = .next t → ExactlyOne s.flags → ExactlyOne t.flags)

/-- The flags are written by exactly the eight data operations, all four of them: what such an instruction does depends on
no old flag, and every other instruction leaves the flags as they are (10_state.md R28). -/
def Obligations.OnlyDataOperationsWriteFlags : Prop :=
  (∀ (i : Instr) (s : State) (f : Flags), isDataOp i = true → exec i (s.setFlags f) = exec i s) ∧
  (∀ (i : Instr) (s t : State), isDataOp i = false → exec i s = .next t → t.flags = s.flags)

/-- The flags are read by BRC alone: any other instruction does the same whatever the flags are, and no flag reaches a
register, a memory word or the pc through it (10_state.md R32). -/
def Obligations.OnlyBranchReadsFlags : Prop :=
  ∀ (i : Instr) (s : State) (f : Flags), (∀ n z p c imm8, i ≠ .brc n z p c imm8) →
    exec i (s.setFlags f) = mapNext (fun t => if isDataOp i then t else t.setFlags f) (exec i s)

/-- Flag C: the carry-out after SUB, a fresh draw after each of the seven other data operations; no other instruction
takes a draw, and one that is no data operation leaves C as it was (10_state.md R31; R28 for the last clause). The draw is a free value: log entry 5. -/
def Obligations.CarryFlag : Prop :=
  (∀ (s t : State) (d a b : Reg), exec (.subReg d a b) s = .next t →
    (t.flags.C = true ↔ (s.reg a).toNat ≤ (s.reg b).toNat)) ∧
  (∀ (s t : State) (d a : Reg) (imm5 : BitVec 5), exec (.subImm d a imm5) s = .next t →
    (t.flags.C = true ↔ (s.reg a).toNat ≤ (BitVec.ofInt 16 imm5.toInt).toNat)) ∧
  (∀ (i : Instr) (s t : State), exec i s = .next t →
    if isDataOp i = true ∧ isSub i = false then FreshCarry s t else t.draws = s.draws) ∧
  (∀ (i : Instr) (s t : State), isDataOp i = false → exec i s = .next t → t.flags.C = s.flags.C)

/-- The subtraction and its carry-out, for every minuend and subtrahend: the 17-bit sum, its range, the difference modulo
65536, and the carry exactly when no borrow occurred (42_arith.md R164). -/
def Obligations.SubtractionCarry : Prop :=
  ∀ m s : Word,
    (subSum m s).toNat = m.toNat + (65535 - s.toNat) + 1 ∧
    1 ≤ (subSum m s).toNat ∧ (subSum m s).toNat ≤ 131071 ∧
    subResult m s = m - s ∧
    (subCarry m s = true ↔ 65536 ≤ (subSum m s).toNat) ∧
    (subCarry m s = true ↔ s.toNat ≤ m.toNat) ∧ (subCarry m s = false ↔ m.toNat < s.toNat) ∧
    (s = 0#16 → subCarry m s = true)

/-- After `SUB` of A from B: N says A > B signed, and P says A < B signed, exactly when the true difference fits 16 bits;
when it does not they say the opposite; Z and C are exact for all operands (42_arith.md R168). -/
def Obligations.SignedComparison : Prop :=
  ∀ (s t : State) (d a b : Reg), exec (.subReg d a b) s = .next t →
    let A := s.reg a
    let B := s.reg b
    let fits : Prop := -32768 ≤ B.toInt - A.toInt ∧ B.toInt - A.toInt ≤ 32767
    (fits → (t.flags.N = true ↔ B.toInt < A.toInt) ∧ (t.flags.P = true ↔ A.toInt < B.toInt)) ∧
    (¬ fits → (t.flags.N = true ↔ A.toInt < B.toInt) ∧ (t.flags.P = true ↔ B.toInt < A.toInt)) ∧
    (t.flags.Z = true ↔ A = B) ∧ (t.flags.C = true ↔ A.toNat ≤ B.toNat)

/-- The source's table of commonly checked conditions, every row, with the proviso on its signed rows: A is `x[a]` and B is
`x[b]`; `SUB d, a, b` computes B - A and `SUB d, b, a` computes A - B (45_control.md R219). -/
def Obligations.ConditionTable : Prop :=
  (∀ (s t : State) (d a b : Reg), exec (.subReg d a b) s = .next t →
    let A := s.reg a
    let B := s.reg b
    let fits : Prop := -32768 ≤ B.toInt - A.toInt ∧ B.toInt - A.toInt ≤ 32767
    BranchesIff true false false false t ((B - A).toInt < 0) ∧
    BranchesIff false false true false t (0 < (B - A).toInt) ∧
    BranchesIff true true false false t ((B - A).toInt ≤ 0) ∧
    BranchesIff false true true false t (0 ≤ (B - A).toInt) ∧
    (fits → BranchesIff true false false false t (A.toInt > B.toInt) ∧
      BranchesIff false false true false t (A.toInt < B.toInt) ∧
      BranchesIff true true false false t (A.toInt ≥ B.toInt) ∧
      BranchesIff false true true false t (A.toInt ≤ B.toInt)) ∧
    BranchesIff true false true true t (A.toNat < B.toNat) ∧
    BranchesIff true true true true t (A.toNat ≤ B.toNat) ∧
    BranchesIff false true false false t (A = B) ∧
    BranchesIff true false true false t (A ≠ B) ∧
    BranchesIff true true true true t (t.flags.C = true)) ∧
  (∀ (s t : State) (d a b : Reg), exec (.subReg d b a) s = .next t →
    BranchesIff true false true true t ((s.reg a).toNat > (s.reg b).toNat) ∧
    BranchesIff true true true true t ((s.reg a).toNat ≥ (s.reg b).toNat)) ∧
  (∀ (s t : State) (d a : Reg) (imm5 : BitVec 5), exec (.subImm d a imm5) s = .next t →
    BranchesIff true true true true t (t.flags.C = true)) ∧
  (∀ (i : Instr) (s t : State), isDataOp i = true → exec i s = .next t → BranchesIff true true true false t True)

/-! ### Loads, stores and SWP -/

/-- LDR at an aligned address of generic memory whose word is written: the word in DST, the flags and all memory as they
were (44_load_store.md R190, R191). -/
def Obligations.LdrLoads : Prop :=
  ∀ (s : State) (dst sr1 : Reg) (ofst6 : BitVec 6) (v : Word),
    (effectiveAddress s sr1 ofst6).toNat % 2 = 0 → (effectiveAddress s sr1 ofst6).toNat < 0x8000 →
    s.data.readWord (effectiveAddress s sr1 ofst6) = some v →
    ∃ t, exec (.ldr dst sr1 ofst6) s = .next t ∧ t.reg dst = v ∧ SameRegsBut dst s t ∧ SameData s t ∧
      MemoryOpFrame s t

/-- STR at an aligned address of generic memory: the word there becomes `x[SRC]`, every other byte, every register and the
flags as they were (44_load_store.md R190, R192). -/
def Obligations.StrStores : Prop :=
  ∀ (s : State) (src sr1 : Reg) (ofst6 : BitVec 6),
    (effectiveAddress s sr1 ofst6).toNat % 2 = 0 → (effectiveAddress s sr1 ofst6).toNat < 0x8000 →
    ∃ t, exec (.str src sr1 ofst6) s = .next t ∧
      t.data.readWord (effectiveAddress s sr1 ofst6) = some (s.reg src) ∧
      SameDataBut (effectiveAddress s sr1 ofst6) s t ∧ SameRegs s t ∧ MemoryOpFrame s t

/-- SWP at an aligned address of generic memory whose word is written: DST holds the previous memory word, the word there
holds the previous DST, every other register and byte and the flags as they were (46_swap.md R240, R241). -/
def Obligations.SwpExchanges : Prop :=
  ∀ (s : State) (dst sr1 : Reg) (ofst6 : BitVec 6) (v : Word),
    (effectiveAddress s sr1 ofst6).toNat % 2 = 0 → (effectiveAddress s sr1 ofst6).toNat < 0x8000 →
    s.data.readWord (effectiveAddress s sr1 ofst6) = some v →
    ∃ t, exec (.swp dst sr1 ofst6) s = .next t ∧ t.reg dst = v ∧
      t.data.readWord (effectiveAddress s sr1 ofst6) = some (s.reg dst) ∧
      SameDataBut (effectiveAddress s sr1 ofst6) s t ∧ SameRegsBut dst s t ∧ MemoryOpFrame s t

/-- LDR, STR and SWP through an odd base register raise MisalignedData, whatever the offset, and the address is odd exactly
when the base is (20_memory.md R55). -/
def Obligations.MisalignedDataFaults : Prop :=
  ∀ (s : State) (r sr1 : Reg) (ofst6 : BitVec 6),
    ((effectiveAddress s sr1 ofst6).toNat % 2 = (s.reg sr1).toNat % 2) ∧
    ((s.reg sr1).toNat % 2 = 1 →
      exec (.ldr r sr1 ofst6) s = .fault (.misalignedData (effectiveAddress s sr1 ofst6)) ∧
      exec (.str r sr1 ofst6) s = .fault (.misalignedData (effectiveAddress s sr1 ofst6)) ∧
      exec (.swp r sr1 ofst6) s = .fault (.misalignedData (effectiveAddress s sr1 ofst6)))

/-- LDR, STR and SWP at an aligned address of 0x8000 or above raise UnmappedDevice; SWP at its read (20_memory.md R52, R53,
R58; log entry 9). -/
def Obligations.DeviceHalfFaults : Prop :=
  ∀ (s : State) (r sr1 : Reg) (ofst6 : BitVec 6),
    (effectiveAddress s sr1 ofst6).toNat % 2 = 0 → 0x8000 ≤ (effectiveAddress s sr1 ofst6).toNat →
    exec (.ldr r sr1 ofst6) s = .fault (.unmappedDevice (effectiveAddress s sr1 ofst6) .read) ∧
    exec (.str r sr1 ofst6) s = .fault (.unmappedDevice (effectiveAddress s sr1 ofst6) .write) ∧
    exec (.swp r sr1 ofst6) s = .fault (.unmappedDevice (effectiveAddress s sr1 ofst6) .read)

/-- LDR and SWP of a word of generic memory that nothing has written raise UninitialisedRead (10_state.md R44, 20_memory.md
R52; log entry 7). -/
def Obligations.UnwrittenWordFaults : Prop :=
  ∀ (s : State) (r sr1 : Reg) (ofst6 : BitVec 6),
    (effectiveAddress s sr1 ofst6).toNat % 2 = 0 → (effectiveAddress s sr1 ofst6).toNat < 0x8000 →
    s.data.readWord (effectiveAddress s sr1 ofst6) = none →
    exec (.ldr r sr1 ofst6) s = .fault (.uninitialisedRead .data (effectiveAddress s sr1 ofst6)) ∧
    exec (.swp r sr1 ofst6) s = .fault (.uninitialisedRead .data (effectiveAddress s sr1 ofst6))

/-- The effective address as a number: `x[SR1]` plus twice the signed offset, modulo 65536 (44_load_store.md R190,
20_memory.md R60). -/
def Obligations.EffectiveAddressValue : Prop :=
  ∀ (s : State) (sr1 : Reg) (ofst6 : BitVec 6),
    ((effectiveAddress s sr1 ofst6).toNat : Int) = ((s.reg sr1).toNat + 2 * ofst6.toInt) % 65536

/-- Extend first, then shift: the extended field keeps its signed value, the scaled one is twice it modulo 65536, no
significant bit is lost, and it is even (30_encoding.md R88). -/
def Obligations.ScaledOffsets : Prop :=
  ∀ (n : Nat) (f : BitVec n), n ≤ 8 →
    (sext f).toInt = f.toInt ∧ ((scaled f).toNat : Int) = 2 * f.toInt % 65536 ∧
    (scaled f).toInt = 2 * f.toInt ∧ (scaled f).toNat % 2 = 0

/-- MemRead, its checks in their order: at an odd address MisalignedData; else from 0x8000 on UnmappedDevice; else the word
there, or UninitialisedRead if it holds none; and the word there is that of the last MemWrite to the address (20_memory.md R52;
the default of parameter MMIO: log entry 9). -/
def Obligations.MemReadCases : Prop :=
  (∀ (s : State) (a : Word),
    (a.toNat % 2 = 1 → memRead s a = .error (.misalignedData a)) ∧
    (a.toNat % 2 = 0 → 0x8000 ≤ a.toNat → memRead s a = .error (.unmappedDevice a .read)) ∧
    (a.toNat % 2 = 0 → a.toNat < 0x8000 → s.data.readWord a = none →
      memRead s a = .error (.uninitialisedRead .data a)) ∧
    (∀ v, a.toNat % 2 = 0 → a.toNat < 0x8000 → s.data.readWord a = some v → memRead s a = .ok v)) ∧
  (∀ (s t : State) (a v : Word), memWrite s a v = .ok t → memRead t a = .ok v ∧
    ∀ b, b ≠ a → memRead t b = memRead s b)

/-- MemWrite: at an odd address MisalignedData; else from 0x8000 on UnmappedDevice; else the word there becomes the value,
all 16 bits, and nothing else changes (20_memory.md R53). -/
def Obligations.MemWriteCases : Prop :=
  ∀ (s : State) (a v : Word),
    (a.toNat % 2 = 1 → memWrite s a v = .error (.misalignedData a)) ∧
    (a.toNat % 2 = 0 → 0x8000 ≤ a.toNat → memWrite s a v = .error (.unmappedDevice a .write)) ∧
    (a.toNat % 2 = 0 → a.toNat < 0x8000 →
      ∃ t, memWrite s a v = .ok t ∧ t.data.readWord a = some v ∧ SameDataBut a s t ∧ t = s.setData t.data)

/-- Plain storage: a load after a store to the same address gives the word stored, a store leaves the read of every other
address alone, and a load changes no memory (20_memory.md R61). -/
def Obligations.PlainStorage : Prop :=
  (∀ (s t : State) (src a : Reg) (o : BitVec 6) (dst a' : Reg) (o' : BitVec 6),
    exec (.str src a o) s = .next t → effectiveAddress t a' o' = effectiveAddress s a o →
    ∃ u, exec (.ldr dst a' o') t = .next u ∧ u.reg dst = s.reg src) ∧
  (∀ (s t : State) (src a : Reg) (o : BitVec 6) (b : Word),
    exec (.str src a o) s = .next t → b ≠ effectiveAddress s a o → memRead t b = memRead s b) ∧
  (∀ (s t : State) (dst a : Reg) (o : BitVec 6), exec (.ldr dst a o) s = .next t → t.data = s.data)

/-- Two equal swaps through a base register that is not exchanged put registers and memory back (from 46_swap.md R241). -/
def Obligations.SwapTwiceRestores : Prop :=
  ∀ (s t : State) (d a : Reg) (o : BitVec 6), d ≠ a → exec (.swp d a o) s = .next t →
    ∃ u, exec (.swp d a o) t = .next u ∧ SameRegs s u ∧ SameData s u ∧ u.flags = s.flags

/-! ### Control transfer, NOP and HLT -/

/-- BRC: taken exactly when the condition of 45_control.md R212 holds, to pc + 2 plus twice the signed immediate; not taken,
to pc + 2; nothing but the pc changes (45_control.md R211). -/
def Obligations.BrcBranches : Prop :=
  ∀ (s : State) (n z p c : Bool), BranchesIff n z p c s (BranchTaken n z p c s.flags)

/-- BRC reads N if n = 1, Z if z = 1, P if p = 1, C if c = 1, and no other flag (45_control.md R212); with n = z = p = 0 it
is never taken. -/
def Obligations.BrcReadsSelectedFlags : Prop :=
  (∀ (s : State) (n z p c : Bool) (imm8 : BitVec 8) (f : Flags),
    (n = true → f.N = s.flags.N) → (z = true → f.Z = s.flags.Z) → (p = true → f.P = s.flags.P) →
    (c = true → f.C = s.flags.C) →
    exec (.brc n z p c imm8) (s.setFlags f) = mapNext (fun t => t.setFlags f) (exec (.brc n z p c imm8) s)) ∧
  (∀ (s : State) (c : Bool), BranchesIff false false false c s False)

/-- JPR jumps to `x[SR1]` plus twice the signed immediate, modulo 65536, and changes nothing but the pc (45_control.md
R213). -/
def Obligations.JprJumps : Prop :=
  ∀ (s : State) (sr1 : Reg) (imm5 : BitVec 5),
    exec (.jpr sr1 imm5) s = .next (s.setPc (BitVec.ofInt 16 (((s.reg sr1).toNat : Int) + 2 * imm5.toInt)))

/-- JLR jumps to the old `x[SR1]` plus twice the signed immediate and leaves pc + 2 in DST, DST = SR1 included; nothing else
changes (45_control.md R216). -/
def Obligations.JlrLinksAndJumps : Prop :=
  ∀ (s : State) (dst sr1 : Reg) (imm5 : BitVec 5), ∃ t,
    exec (.jlr dst sr1 imm5) s = .next t ∧ (t.reg dst).toNat = (s.pc.toNat + 2) % 65536 ∧
    (t.pc.toNat : Int) = ((s.reg sr1).toNat + 2 * imm5.toInt) % 65536 ∧
    SameRegsBut dst s t ∧ t.flags = s.flags ∧ SameData s t ∧ SameProgram s t ∧ t.halted = s.halted ∧
    t.draws = s.draws

/-- The return from interrupt, interrupts not being supported, is the equivalent of a NOP: only the pc advances; it does not
read register 0 and it does not jump (45_control.md R214, 60_exceptions.md R262; log entry 13). -/
def Obligations.ReturnFromInterruptIsNop : Prop :=
  ∀ s : State, exec .rti s = .next (s.setPc (BitVec.ofInt 16 ((s.pc.toNat : Int) + 2))) ∧ exec .rti s = exec .nop s

/-- NOP is the single word 0x0000 of its opcode, and only the pc advances (47_nop_hlt.md R250). -/
def Obligations.NopOnlyAdvances : Prop :=
  (∀ w : Word, w.extractLsb' 12 4 = 0b0000#4 →
    (w = 0x0000#16 → decodeWord w = .ok .nop) ∧ (w ≠ 0x0000#16 → decodeWord w = .error (.reserved w))) ∧
  (∀ s : State, exec .nop s = .next (s.setPc (BitVec.ofInt 16 ((s.pc.toNat : Int) + 2))))

/-- HLT is the single word 0x3000 of its opcode; it sets the halted bit and changes nothing else, the pc included; after it
no step changes anything (47_nop_hlt.md R252; that the step then answers the same state: log entry 14). -/
def Obligations.HltHalts : Prop :=
  (∀ w : Word, w.extractLsb' 12 4 = 0b0011#4 →
    (w = 0x3000#16 → decodeWord w = .ok .hlt) ∧ (w ≠ 0x3000#16 → decodeWord w = .error (.reserved w))) ∧
  (∀ s : State, exec .hlt s = .next (s.setHalted true)) ∧
  (∀ s t : State, exec .hlt s = .next t → step t = .next t)

/-- A call by JLR and a return by JPR through the link register come back to the instruction after the JLR (45_control.md
R213, R216, R217). -/
def Obligations.CallReturns : Prop :=
  ∀ (s t : State) (link sr1 : Reg) (imm5 : BitVec 5), exec (.jlr link sr1 imm5) s = .next t →
    ∀ u : State, u.reg link = t.reg link →
      ∃ v, exec (.jpr link 0) u = .next v ∧ v.pc.toNat = (s.pc.toNat + 2) % 65536

/-- How every instruction advances the pc: two on, but for a taken BRC, a JPR, a JLR and a HLT (10_state.md R25). -/
def Obligations.PcOfEveryInstruction : Prop :=
  ∀ (i : Instr) (s t : State), exec i s = .next t →
    match i with
    | .brc n z p c imm8 =>
      (BranchTaken n z p c s.flags → (t.pc.toNat : Int) = (s.pc.toNat + 2 + 2 * imm8.toInt) % 65536) ∧
      (¬ BranchTaken n z p c s.flags → Advanced s t)
    | .jpr sr1 imm5 => (t.pc.toNat : Int) = ((s.reg sr1).toNat + 2 * imm5.toInt) % 65536
    | .jlr _ sr1 imm5 => (t.pc.toNat : Int) = ((s.reg sr1).toNat + 2 * imm5.toInt) % 65536
    | .hlt => t.pc = s.pc ∧ t.halted = true
    | _ => Advanced s t

/-- Only JPR and JLR can make the pc odd, and they do exactly when `x[SR1]` is odd; the fetch that follows then raises
MisalignedFetch (10_state.md R26). -/
def Obligations.PcParity : Prop :=
  (∀ (i : Instr) (s t : State), (∀ a imm5, i ≠ .jpr a imm5) → (∀ d a imm5, i ≠ .jlr d a imm5) →
    exec i s = .next t → s.pc.toNat % 2 = 0 → t.pc.toNat % 2 = 0) ∧
  (∀ (s t : State) (d a : Reg) (imm5 : BitVec 5),
    exec (.jpr a imm5) s = .next t ∨ exec (.jlr d a imm5) s = .next t →
    t.pc.toNat % 2 = (s.reg a).toNat % 2 ∧
    ((s.reg a).toNat % 2 = 1 → t.halted = false → step t = .fault (.misalignedFetch t.pc)))

/-! ### The whole machine -/

/-- Harvard separation: what an instruction does depends on no word of the program space, which fetch alone reads; only LDR,
STR and SWP depend on data memory, only STR and SWP change it, and no fetch depends on it (10_state.md R36). -/
def Obligations.HarvardSeparation : Prop :=
  (∀ (i : Instr) (s : State) (m : Memory),
    exec i (s.setProg m) = mapNext (fun t => t.setProg m) (exec i s)) ∧
  (∀ (i : Instr) (s : State) (m : Memory), reachesData i = false →
    exec i (s.setData m) = mapNext (fun t => t.setData m) (exec i s)) ∧
  (∀ (i : Instr) (s t : State), (∀ src a o, i ≠ .str src a o) → (∀ d a o, i ≠ .swp d a o) →
    exec i s = .next t → t.data = s.data) ∧
  (∀ (s : State) (m : Memory), fetchInstr (s.setData m) = fetchInstr s)

/-- The registers an instruction writes: `x[DST]` of the forms 10_state.md R23 lists, and no other. -/
def Obligations.RegistersWritten : Prop :=
  ∀ (i : Instr) (s t : State), exec i s = .next t → ∀ r, destination i ≠ some r → t.reg r = s.reg r

/-- The registers an instruction reads: whatever a register that is no source of the form holds, the instruction does the
same, and keeps that value in it unless it is the destination (10_state.md R23). -/
def Obligations.RegistersRead : Prop :=
  ∀ (i : Instr) (s : State) (r : Reg) (v : Word), r ∉ sources i →
    exec i (s.setReg r v) =
      mapNext (fun t => if destination i = some r then t else t.setReg r v) (exec i s)
end

