-- ==== Sys2Proof/Laws/Encoding.lean ====
section
/-! SUPPORT. The bits of each field of a word, and what it means for a row of the opcode table to select a word: proofs
about encodings cite these and do not unfold the fields. -/

namespace Sys2Proof

theorem opField_getLsbD (w : Word) (k : Nat) : (opField w).getLsbD k = (decide (k < 4) && w.getLsbD (12 + k)) :=
  BitVec.getLsbD_extractLsb' ..
theorem dstField_getLsbD (w : Word) (k : Nat) : (dstField w).getLsbD k = (decide (k < 3) && w.getLsbD (9 + k)) :=
  BitVec.getLsbD_extractLsb' ..
theorem sr1Field_getLsbD (w : Word) (k : Nat) : (sr1Field w).getLsbD k = (decide (k < 3) && w.getLsbD (6 + k)) :=
  BitVec.getLsbD_extractLsb' ..
theorem sr2Field_getLsbD (w : Word) (k : Nat) : (sr2Field w).getLsbD k = (decide (k < 3) && w.getLsbD (0 + k)) :=
  BitVec.getLsbD_extractLsb' ..
theorem imm4Field_getLsbD (w : Word) (k : Nat) : (imm4Field w).getLsbD k = (decide (k < 4) && w.getLsbD (0 + k)) :=
  BitVec.getLsbD_extractLsb' ..
theorem imm5Field_getLsbD (w : Word) (k : Nat) : (imm5Field w).getLsbD k = (decide (k < 5) && w.getLsbD (0 + k)) :=
  BitVec.getLsbD_extractLsb' ..
theorem ofst6Field_getLsbD (w : Word) (k : Nat) : (ofst6Field w).getLsbD k = (decide (k < 6) && w.getLsbD (0 + k)) :=
  BitVec.getLsbD_extractLsb' ..
theorem imm8Field_getLsbD (w : Word) (k : Nat) : (imm8Field w).getLsbD k = (decide (k < 8) && w.getLsbD (0 + k)) :=
  BitVec.getLsbD_extractLsb' ..

/-- The four opcode bits of a word whose opcode is a given number. -/
theorem opField_bits {w : Word} {n : Nat} (h : (opField w).toNat = n) :
    w.getLsbD 12 = n.testBit 0 ∧ w.getLsbD 13 = n.testBit 1 ∧ w.getLsbD 14 = n.testBit 2 ∧
      w.getLsbD 15 = n.testBit 3 := by
  have key (k : Nat) : (opField w).getLsbD k = n.testBit k := by rw [← h, BitVec.testBit_toNat]
  simp only [opField_getLsbD] at key
  exact ⟨by simpa using key 0, by simpa using key 1, by simpa using key 2, by simpa using key 3⟩

/-- A row selects a word exactly when the word has the pattern's bit wherever the mask has one, and the pattern has none
elsewhere. -/
theorem Row.selects_iff (r : Row) (w : Word) :
    r.selects w = true ↔ ∀ k, k < 16 → (w.getLsbD k && r.mask.getLsbD k) = r.pattern.getLsbD k := by
  rw [Row.selects, beq_iff_eq]
  constructor
  · intro h k _
    rw [← h, BitVec.getLsbD_and]
  · intro h
    exact BitVec.eq_of_getLsbD_eq fun k hk => by rw [BitVec.getLsbD_and, h k hk]

end Sys2Proof
end

