-- ==== Sys2Proof/Laws/State.lean ====
section
/-! SUPPORT. One lemma per field per update of State, true by rfl, and the laws of the register file. -/

namespace Sys2Proof.Machine

@[simp] theorem State.setReg_pc (s : State) (r v) : (s.setReg r v).pc = s.pc := rfl
@[simp] theorem State.setReg_flags (s : State) (r v) : (s.setReg r v).flags = s.flags := rfl
@[simp] theorem State.setReg_halted (s : State) (r v) : (s.setReg r v).halted = s.halted := rfl
@[simp] theorem State.setReg_prog (s : State) (r v) : (s.setReg r v).prog = s.prog := rfl
@[simp] theorem State.setReg_data (s : State) (r v) : (s.setReg r v).data = s.data := rfl
@[simp] theorem State.setReg_draws (s : State) (r v) : (s.setReg r v).draws = s.draws := rfl
@[simp] theorem State.setReg_nextPc (s : State) (r v) : (s.setReg r v).nextPc = s.nextPc := rfl

@[simp] theorem State.setPc_pc (s : State) (a) : (s.setPc a).pc = a := rfl
@[simp] theorem State.setPc_flags (s : State) (a) : (s.setPc a).flags = s.flags := rfl
@[simp] theorem State.setPc_halted (s : State) (a) : (s.setPc a).halted = s.halted := rfl
@[simp] theorem State.setPc_prog (s : State) (a) : (s.setPc a).prog = s.prog := rfl
@[simp] theorem State.setPc_data (s : State) (a) : (s.setPc a).data = s.data := rfl
@[simp] theorem State.setPc_draws (s : State) (a) : (s.setPc a).draws = s.draws := rfl
@[simp] theorem State.setPc_reg (s : State) (a r) : (s.setPc a).reg r = s.reg r := rfl

@[simp] theorem State.setFlags_pc (s : State) (f) : (s.setFlags f).pc = s.pc := rfl
@[simp] theorem State.setFlags_flags (s : State) (f) : (s.setFlags f).flags = f := rfl
@[simp] theorem State.setFlags_halted (s : State) (f) : (s.setFlags f).halted = s.halted := rfl
@[simp] theorem State.setFlags_prog (s : State) (f) : (s.setFlags f).prog = s.prog := rfl
@[simp] theorem State.setFlags_data (s : State) (f) : (s.setFlags f).data = s.data := rfl
@[simp] theorem State.setFlags_draws (s : State) (f) : (s.setFlags f).draws = s.draws := rfl
@[simp] theorem State.setFlags_reg (s : State) (f r) : (s.setFlags f).reg r = s.reg r := rfl
@[simp] theorem State.setFlags_nextPc (s : State) (f) : (s.setFlags f).nextPc = s.nextPc := rfl

@[simp] theorem State.setHalted_pc (s : State) (h) : (s.setHalted h).pc = s.pc := rfl
@[simp] theorem State.setHalted_flags (s : State) (h) : (s.setHalted h).flags = s.flags := rfl
@[simp] theorem State.setHalted_halted (s : State) (h) : (s.setHalted h).halted = h := rfl
@[simp] theorem State.setHalted_prog (s : State) (h) : (s.setHalted h).prog = s.prog := rfl
@[simp] theorem State.setHalted_data (s : State) (h) : (s.setHalted h).data = s.data := rfl
@[simp] theorem State.setHalted_draws (s : State) (h) : (s.setHalted h).draws = s.draws := rfl
@[simp] theorem State.setHalted_reg (s : State) (h r) : (s.setHalted h).reg r = s.reg r := rfl
@[simp] theorem State.setHalted_nextPc (s : State) (h) : (s.setHalted h).nextPc = s.nextPc := rfl

@[simp] theorem State.setProg_pc (s : State) (m) : (s.setProg m).pc = s.pc := rfl
@[simp] theorem State.setProg_flags (s : State) (m) : (s.setProg m).flags = s.flags := rfl
@[simp] theorem State.setProg_halted (s : State) (m) : (s.setProg m).halted = s.halted := rfl
@[simp] theorem State.setProg_prog (s : State) (m) : (s.setProg m).prog = m := rfl
@[simp] theorem State.setProg_data (s : State) (m) : (s.setProg m).data = s.data := rfl
@[simp] theorem State.setProg_draws (s : State) (m) : (s.setProg m).draws = s.draws := rfl
@[simp] theorem State.setProg_reg (s : State) (m r) : (s.setProg m).reg r = s.reg r := rfl
@[simp] theorem State.setProg_nextPc (s : State) (m) : (s.setProg m).nextPc = s.nextPc := rfl

@[simp] theorem State.setData_pc (s : State) (m) : (s.setData m).pc = s.pc := rfl
@[simp] theorem State.setData_flags (s : State) (m) : (s.setData m).flags = s.flags := rfl
@[simp] theorem State.setData_halted (s : State) (m) : (s.setData m).halted = s.halted := rfl
@[simp] theorem State.setData_prog (s : State) (m) : (s.setData m).prog = s.prog := rfl
@[simp] theorem State.setData_data (s : State) (m) : (s.setData m).data = m := rfl
@[simp] theorem State.setData_draws (s : State) (m) : (s.setData m).draws = s.draws := rfl
@[simp] theorem State.setData_reg (s : State) (m r) : (s.setData m).reg r = s.reg r := rfl
@[simp] theorem State.setData_nextPc (s : State) (m) : (s.setData m).nextPc = s.nextPc := rfl

@[simp] theorem State.nextDraw_pc (s : State) : s.nextDraw.pc = s.pc := rfl
@[simp] theorem State.nextDraw_flags (s : State) : s.nextDraw.flags = s.flags := rfl
@[simp] theorem State.nextDraw_halted (s : State) : s.nextDraw.halted = s.halted := rfl
@[simp] theorem State.nextDraw_prog (s : State) : s.nextDraw.prog = s.prog := rfl
@[simp] theorem State.nextDraw_data (s : State) : s.nextDraw.data = s.data := rfl
@[simp] theorem State.nextDraw_draws (s : State) : s.nextDraw.draws = s.draws + 1 := rfl
@[simp] theorem State.nextDraw_reg (s : State) (r) : s.nextDraw.reg r = s.reg r := rfl

@[simp] theorem State.advance_pc (s : State) : s.advance.pc = s.nextPc := rfl
@[simp] theorem State.advance_flags (s : State) : s.advance.flags = s.flags := rfl
@[simp] theorem State.advance_halted (s : State) : s.advance.halted = s.halted := rfl
@[simp] theorem State.advance_prog (s : State) : s.advance.prog = s.prog := rfl
@[simp] theorem State.advance_data (s : State) : s.advance.data = s.data := rfl
@[simp] theorem State.advance_draws (s : State) : s.advance.draws = s.draws := rfl
@[simp] theorem State.advance_reg (s : State) (r) : s.advance.reg r = s.reg r := rfl

theorem State.reg_setReg (s : State) (d r : Reg) (v : Word) :
    (s.setReg d v).reg r = if r = d then v else s.reg r := by
  simp only [State.reg, State.setReg, Vector.getElem_set, BitVec.toNat_inj, eq_comm]

@[simp] theorem State.reg_setReg_same (s : State) (d : Reg) (v : Word) : (s.setReg d v).reg d = v := by
  simp [State.reg_setReg]

theorem State.reg_setReg_other (s : State) {d r : Reg} (v : Word) (h : r ≠ d) :
    (s.setReg d v).reg r = s.reg r := by
  simp [State.reg_setReg, h]

/-- A second write to one register replaces the first. -/
theorem State.setReg_setReg_same (s : State) (d : Reg) (u v : Word) :
    (s.setReg d u).setReg d v = s.setReg d v := by
  simp [State.setReg]

/-- Writes to two registers may be made in either order. -/
theorem State.setReg_comm (s : State) {d r : Reg} (u v : Word) (h : r ≠ d) :
    (s.setReg r u).setReg d v = (s.setReg d v).setReg r u := by
  have hn : r.toNat ≠ d.toNat := fun e => h (BitVec.eq_of_toNat_eq e)
  simp [State.setReg, Vector.set_comm _ _ hn]

end Sys2Proof.Machine
end

