-- ==== Sys2Proof/Laws/Memory.lean ====
section
/-! SUPPORT. The laws of memory: reading after writing, that every operation keeps the canonical form, and what a memory
access that completes has done. -/

namespace Sys2Proof.Machine

/-! ### One byte -/

@[simp] theorem Memory.read_nil (a : Nat) : Memory.read [] a = unlistedByte := rfl

theorem Memory.read_cons (k : Nat) (w : Byte) (rest : Memory) (b : Nat) :
    Memory.read ((k, w) :: rest) b = if b = k then some w else rest.read b := by
  simp only [Memory.read, eq_comm]

theorem Memory.read_insert (m : Memory) (a : Nat) (v : Byte) (b : Nat) :
    (m.insert a v).read b = if b = a then some v else m.read b := by
  induction m with
  | nil => simp only [Memory.insert, Memory.read_cons, Memory.read_nil]
  | cons c rest ih =>
    obtain ⟨k, w⟩ := c
    simp only [Memory.insert]
    split
    · simp only [Memory.read_cons]
    · split
      · subst_vars; simp only [Memory.read_cons]; split <;> rfl
      · simp only [Memory.read_cons, ih]; split <;> split <;> first | rfl | omega

theorem Memory.read_filter (m : Memory) (a b : Nat) :
    Memory.read (m.filter (fun c => c.1 != a)) b = if b = a then unlistedByte else m.read b := by
  induction m with
  | nil => simp
  | cons c rest ih =>
    obtain ⟨k, w⟩ := c
    by_cases hk : k = a
    · rw [List.filter_cons_of_neg (by simp [hk]), ih, Memory.read_cons]
      split
      · rfl
      · rw [if_neg (by omega)]
    · rw [List.filter_cons_of_pos (by simp [hk]), Memory.read_cons, Memory.read_cons, ih]
      split <;> split <;> first | rfl | omega

/-- A read after a write: the byte written at its own address, the old byte at every other. -/
theorem Memory.read_write (m : Memory) (a : Nat) (v : Byte) (b : Nat) :
    (m.write a v).read b = if b = a then some v else m.read b := by
  unfold Memory.write
  split
  · rename_i h; rw [Memory.read_filter, h]
  · exact Memory.read_insert m a v b

/-! ### The canonical form -/

theorem Memory.mem_insert {m : Memory} {a : Nat} {v : Byte} {c : Host.Cell} (h : c ∈ m.insert a v) :
    c = (a, v) ∨ c ∈ m := by
  induction m with
  | nil => simpa [Memory.insert] using h
  | cons d rest ih =>
    obtain ⟨k, w⟩ := d
    simp only [Memory.insert] at h
    split at h
    · simpa using h
    · split at h
      · simp only [List.mem_cons] at h ⊢; tauto
      · simp only [List.mem_cons] at h ⊢; rcases h with h | h
        · exact .inr (.inl h)
        · rcases ih h with h | h <;> tauto

theorem Memory.mem_write {m : Memory} {a : Nat} {v : Byte} {c : Host.Cell} (h : c ∈ m.write a v) :
    c = (a, v) ∨ c ∈ m := by
  unfold Memory.write at h
  split at h
  · exact .inr (List.mem_filter.mp h).1
  · exact Memory.mem_insert h

theorem Memory.wf_cons (k : Nat) (b : Byte) (rest : Memory) :
    Memory.wf ((k, b) :: rest) = true ↔ (∀ c ∈ rest, k < c.1) ∧ unlistedByte ≠ some b ∧ rest.wf = true := by
  simp [Memory.wf, and_assoc]

theorem Memory.insert_wf {m : Memory} {a : Nat} {v : Byte} (hm : m.wf = true) (hv : unlistedByte ≠ some v) :
    (m.insert a v).wf = true := by
  induction m with
  | nil => simpa [Memory.insert, Memory.wf] using hv
  | cons c rest ih =>
    obtain ⟨k, w⟩ := c
    obtain ⟨hlt, hne, hrest⟩ := (Memory.wf_cons k w rest).mp hm
    simp only [Memory.insert]
    split
    · rename_i h
      refine (Memory.wf_cons _ _ _).mpr ⟨fun c hc => ?_, hv, hm⟩
      rcases List.mem_cons.mp hc with rfl | hc
      · exact h
      · exact h.trans (hlt c hc)
    · split
      · subst_vars; exact (Memory.wf_cons _ _ _).mpr ⟨hlt, hv, hrest⟩
      · refine (Memory.wf_cons _ _ _).mpr ⟨fun c hc => ?_, hne, ih hrest⟩
        rcases Memory.mem_insert hc with rfl | hc
        · simp only; omega
        · exact hlt c hc

theorem Memory.filter_wf {m : Memory} (p : Host.Cell → Bool) (hm : m.wf = true) :
    Memory.wf (m.filter p) = true := by
  induction m with
  | nil => rfl
  | cons c rest ih =>
    obtain ⟨k, w⟩ := c
    obtain ⟨hlt, hne, hrest⟩ := (Memory.wf_cons k w rest).mp hm
    rw [List.filter_cons]
    split
    · exact (Memory.wf_cons _ _ _).mpr ⟨fun c hc => hlt c (List.mem_filter.mp hc).1, hne, ih hrest⟩
    · exact ih hrest

/-- A byte write keeps the canonical form. -/
theorem Memory.write_wf {m : Memory} (a : Nat) (v : Byte) (hm : m.wf = true) : (m.write a v).wf = true := by
  unfold Memory.write
  split
  · exact Memory.filter_wf _ hm
  · exact Memory.insert_wf hm ‹_›

/-- A word write keeps the canonical form. -/
theorem Memory.writeWord_wf {m : Memory} (a v : Word) (hm : m.wf = true) : (m.writeWord a v).wf = true :=
  Memory.write_wf _ _ (Memory.write_wf _ _ hm)

theorem State.reset_wf : State.reset.prog.wf = true ∧ State.reset.data.wf = true := by decide

/-! ### One word -/

theorem Memory.read_writeWord (m : Memory) (a v : Word) (b : Nat) :
    (m.writeWord a v).read b =
      if b = a.toNat + 1 then some (upperByte v) else if b = a.toNat then some (lowerByte v) else m.read b := by
  simp only [Memory.writeWord, Memory.read_write]

/-- Every listed byte of a memory after a word write was listed before or is one of the word's two. -/
theorem Memory.mem_writeWord {m : Memory} {a v : Word} {c : Host.Cell} (h : c ∈ m.writeWord a v) :
    c.1 = a.toNat + 1 ∨ c.1 = a.toNat ∨ c ∈ m := by
  rcases Memory.mem_write h with rfl | h
  · exact .inl rfl
  · rcases Memory.mem_write h with rfl | h
    · exact .inr (.inl rfl)
    · exact .inr (.inr h)

/-- The two bytes of a word make the word again, in whatever order they lie. -/
theorem wordOfBytes_bytes (v : Word) : wordOfBytes (lowerByte v) (upperByte v) = v := by
  apply BitVec.eq_of_getLsbD_eq
  intro i hi
  simp only [wordOfBytes, lowerByte, upperByte, BitVec.getLsbD_append, BitVec.getLsbD_extractLsb']
  by_cases h : i < 8
  · simp [h]
  · simp [h, show i - 8 < 8 by omega, show 8 + (i - 8) = i by omega]

theorem lowerByte_wordOfBytes (l u : Byte) : lowerByte (wordOfBytes l u) = l := by
  apply BitVec.eq_of_getLsbD_eq
  intro i hi
  simp only [lowerByte, wordOfBytes, BitVec.getLsbD_append, BitVec.getLsbD_extractLsb']
  simp [hi]

theorem upperByte_wordOfBytes (l u : Byte) : upperByte (wordOfBytes l u) = u := by
  apply BitVec.eq_of_getLsbD_eq
  intro i hi
  simp only [upperByte, wordOfBytes, BitVec.getLsbD_append, BitVec.getLsbD_extractLsb']
  simp [hi]

/-- A word read gives the word last written at its address. -/
theorem Memory.readWord_writeWord_same (m : Memory) (a v : Word) : (m.writeWord a v).readWord a = some v := by
  simp [Memory.readWord, Memory.read_writeWord, wordOfBytes_bytes]

/-- A word write at one even address leaves the word at every other even address alone. -/
theorem Memory.readWord_writeWord_other (m : Memory) {a b : Word} (v : Word)
    (ha : misaligned a = false) (hb : misaligned b = false) (h : b ≠ a) :
    (m.writeWord a v).readWord b = m.readWord b := by
  have ea : a.toNat % 2 = 0 := by
    simpa [misaligned, BitVec.getLsbD, Nat.testBit_zero] using ha
  have eb : b.toNat % 2 = 0 := by
    simpa [misaligned, BitVec.getLsbD, Nat.testBit_zero] using hb
  have hn : b.toNat ≠ a.toNat := fun e => h (BitVec.eq_of_toNat_eq e)
  have h1 : b.toNat ≠ a.toNat + 1 := by omega
  have h2 : b.toNat + 1 ≠ a.toNat + 1 := by omega
  have h3 : b.toNat + 1 ≠ a.toNat := by omega
  simp only [Memory.readWord, Memory.read_writeWord, if_neg hn, if_neg h1, if_neg h2, if_neg h3]

/-! ### The accesses of LDR, STR and SWP -/

theorem misaligned_eq_false {a : Word} : misaligned a = false ↔ a.toNat % 2 = 0 := by
  simp [misaligned, BitVec.getLsbD, Nat.testBit_zero]

theorem misaligned_eq_true {a : Word} : misaligned a = true ↔ a.toNat % 2 = 1 := by
  simp [misaligned, BitVec.getLsbD, Nat.testBit_zero]

theorem deviceHalf_eq_false {a : Word} : deviceHalf a = false ↔ a.toNat < 0x8000 := by
  simp [deviceHalf]

theorem deviceHalf_eq_true {a : Word} : deviceHalf a = true ↔ 0x8000 ≤ a.toNat := by
  simp [deviceHalf]

/-- When a data read answers a word: exactly at an aligned address of the generic half that holds one. -/
theorem memRead_eq_ok {s : State} {a v : Word} :
    memRead s a = .ok v ↔ misaligned a = false ∧ deviceHalf a = false ∧ s.data.readWord a = some v := by
  unfold memRead
  cases misaligned a <;> cases deviceHalf a <;> cases s.data.readWord a <;> simp

/-- When a data write completes, and what it has done. -/
theorem memWrite_eq_ok {s t : State} {a v : Word} :
    memWrite s a v = .ok t ↔
      misaligned a = false ∧ deviceHalf a = false ∧ t = s.setData (s.data.writeWord a v) := by
  unfold memWrite
  cases misaligned a <;> cases deviceHalf a <;> simp [eq_comm]

end Sys2Proof.Machine
end

