-- ==== Sys2Proof/Laws/PerInstr.lean ====
section
/-! SUPPORT. The statement about every instruction as syntax, family OwnRow: an instruction's word has the form of the
instruction's own row of the opcode table (30_encoding.md R81, R85). One lemma per constructor. -/

namespace Sys2Proof.Laws.OwnRow

/-- The word of the instruction is selected by the instruction's own row. -/
def Statement (i : Instr) : Prop := i.row.selects (encodeWord i) = true

theorem andReg (dst sr1 sr2 : Reg) : Statement (.andReg dst sr1 sr2) := by
  refine (Row.selects_iff _ _).mpr fun k hk => ?_
  simp only [Instr.row, encodeWord, BitVec.getLsbD_append]
  interval_cases k <;> simp

theorem andImm (dst sr1 : Reg) (imm5 : BitVec 5) : Statement (.andImm dst sr1 imm5) := by
  refine (Row.selects_iff _ _).mpr fun k hk => ?_
  simp only [Instr.row, encodeWord, BitVec.getLsbD_append]
  interval_cases k <;> simp

theorem orrReg (dst sr1 sr2 : Reg) : Statement (.orrReg dst sr1 sr2) := by
  refine (Row.selects_iff _ _).mpr fun k hk => ?_
  simp only [Instr.row, encodeWord, BitVec.getLsbD_append]
  interval_cases k <;> simp

theorem orrImm (dst sr1 : Reg) (imm5 : BitVec 5) : Statement (.orrImm dst sr1 imm5) := by
  refine (Row.selects_iff _ _).mpr fun k hk => ?_
  simp only [Instr.row, encodeWord, BitVec.getLsbD_append]
  interval_cases k <;> simp

theorem xorReg (dst sr1 sr2 : Reg) : Statement (.xorReg dst sr1 sr2) := by
  refine (Row.selects_iff _ _).mpr fun k hk => ?_
  simp only [Instr.row, encodeWord, BitVec.getLsbD_append]
  interval_cases k <;> simp

theorem xorImm (dst sr1 : Reg) (imm5 : BitVec 5) : Statement (.xorImm dst sr1 imm5) := by
  refine (Row.selects_iff _ _).mpr fun k hk => ?_
  simp only [Instr.row, encodeWord, BitVec.getLsbD_append]
  interval_cases k <;> simp

theorem shlReg (dst sr1 sr2 : Reg) : Statement (.shlReg dst sr1 sr2) := by
  refine (Row.selects_iff _ _).mpr fun k hk => ?_
  simp only [Instr.row, encodeWord, BitVec.getLsbD_append]
  interval_cases k <;> simp

theorem shlImm (dst sr1 : Reg) (imm4 : BitVec 4) : Statement (.shlImm dst sr1 imm4) := by
  refine (Row.selects_iff _ _).mpr fun k hk => ?_
  simp only [Instr.row, encodeWord, BitVec.getLsbD_append]
  interval_cases k <;> simp

theorem shrReg (dst sr1 : Reg) (a : Bool) (sr2 : Reg) : Statement (.shrReg dst sr1 a sr2) := by
  refine (Row.selects_iff _ _).mpr fun k hk => ?_
  simp only [Instr.row, encodeWord, BitVec.getLsbD_append]
  interval_cases k <;> simp

theorem shrImm (dst sr1 : Reg) (a : Bool) (imm4 : BitVec 4) : Statement (.shrImm dst sr1 a imm4) := by
  refine (Row.selects_iff _ _).mpr fun k hk => ?_
  simp only [Instr.row, encodeWord, BitVec.getLsbD_append]
  interval_cases k <;> simp

theorem addReg (dst sr1 sr2 : Reg) : Statement (.addReg dst sr1 sr2) := by
  refine (Row.selects_iff _ _).mpr fun k hk => ?_
  simp only [Instr.row, encodeWord, BitVec.getLsbD_append]
  interval_cases k <;> simp

theorem addImm (dst sr1 : Reg) (imm5 : BitVec 5) : Statement (.addImm dst sr1 imm5) := by
  refine (Row.selects_iff _ _).mpr fun k hk => ?_
  simp only [Instr.row, encodeWord, BitVec.getLsbD_append]
  interval_cases k <;> simp

theorem subReg (dst sr1 sr2 : Reg) : Statement (.subReg dst sr1 sr2) := by
  refine (Row.selects_iff _ _).mpr fun k hk => ?_
  simp only [Instr.row, encodeWord, BitVec.getLsbD_append]
  interval_cases k <;> simp

theorem subImm (dst sr1 : Reg) (imm5 : BitVec 5) : Statement (.subImm dst sr1 imm5) := by
  refine (Row.selects_iff _ _).mpr fun k hk => ?_
  simp only [Instr.row, encodeWord, BitVec.getLsbD_append]
  interval_cases k <;> simp

theorem lbi (dst : Reg) (imm8 : BitVec 8) : Statement (.lbi dst imm8) := by
  refine (Row.selects_iff _ _).mpr fun k hk => ?_
  simp only [Instr.row, encodeWord, BitVec.getLsbD_append]
  interval_cases k <;> simp

theorem lbiShift (dst : Reg) (imm8 : BitVec 8) : Statement (.lbiShift dst imm8) := by
  refine (Row.selects_iff _ _).mpr fun k hk => ?_
  simp only [Instr.row, encodeWord, BitVec.getLsbD_append]
  interval_cases k <;> simp

theorem ldr (dst sr1 : Reg) (ofst6 : BitVec 6) : Statement (.ldr dst sr1 ofst6) := by
  refine (Row.selects_iff _ _).mpr fun k hk => ?_
  simp only [Instr.row, encodeWord, BitVec.getLsbD_append]
  interval_cases k <;> simp

theorem str (src sr1 : Reg) (ofst6 : BitVec 6) : Statement (.str src sr1 ofst6) := by
  refine (Row.selects_iff _ _).mpr fun k hk => ?_
  simp only [Instr.row, encodeWord, BitVec.getLsbD_append]
  interval_cases k <;> simp

theorem brc (n z p c : Bool) (imm8 : BitVec 8) : Statement (.brc n z p c imm8) := by
  refine (Row.selects_iff _ _).mpr fun k hk => ?_
  simp only [Instr.row, encodeWord, BitVec.getLsbD_append]
  interval_cases k <;> simp

theorem jpr (sr1 : Reg) (imm5 : BitVec 5) : Statement (.jpr sr1 imm5) := by
  refine (Row.selects_iff _ _).mpr fun k hk => ?_
  simp only [Instr.row, encodeWord, BitVec.getLsbD_append]
  interval_cases k <;> simp

theorem rti : Statement .rti := by unfold Statement; decide

theorem jlr (dst sr1 : Reg) (imm5 : BitVec 5) : Statement (.jlr dst sr1 imm5) := by
  refine (Row.selects_iff _ _).mpr fun k hk => ?_
  simp only [Instr.row, encodeWord, BitVec.getLsbD_append]
  interval_cases k <;> simp

theorem swp (dst sr1 : Reg) (ofst6 : BitVec 6) : Statement (.swp dst sr1 ofst6) := by
  refine (Row.selects_iff _ _).mpr fun k hk => ?_
  simp only [Instr.row, encodeWord, BitVec.getLsbD_append]
  interval_cases k <;> simp

theorem nop : Statement .nop := by unfold Statement; decide

theorem hlt : Statement .hlt := by unfold Statement; decide

end Sys2Proof.Laws.OwnRow
end

