-- ==== Sys2Proof/Laws/Step.lean ====
section
/-! SUPPORT. What a step, a fetch and each shape of instruction can do, said once: callers cite these and do not unfold
the machine. -/

namespace Sys2Proof.Machine

/-! ### The common ends of the data operations -/

@[simp] theorem finishWithCarry_pc (s : State) (d r c) : (finishWithCarry s d r c).pc = s.nextPc := rfl
@[simp] theorem finishWithCarry_flags (s : State) (d r c) : (finishWithCarry s d r c).flags = resultFlags r c := rfl
@[simp] theorem finishWithCarry_halted (s : State) (d r c) : (finishWithCarry s d r c).halted = s.halted := rfl
@[simp] theorem finishWithCarry_prog (s : State) (d r c) : (finishWithCarry s d r c).prog = s.prog := rfl
@[simp] theorem finishWithCarry_data (s : State) (d r c) : (finishWithCarry s d r c).data = s.data := rfl
@[simp] theorem finishWithCarry_draws (s : State) (d r c) : (finishWithCarry s d r c).draws = s.draws := rfl
@[simp] theorem finishWithCarry_reg (s : State) (d r c) (q : Reg) :
    (finishWithCarry s d r c).reg q = (s.setReg d r).reg q := rfl

@[simp] theorem finishData_pc (s : State) (d r) : (finishData s d r).pc = s.nextPc := rfl
@[simp] theorem finishData_flags (s : State) (d r) :
    (finishData s d r).flags = resultFlags r (Config.freeCarry s.draws) := rfl
@[simp] theorem finishData_halted (s : State) (d r) : (finishData s d r).halted = s.halted := rfl
@[simp] theorem finishData_prog (s : State) (d r) : (finishData s d r).prog = s.prog := rfl
@[simp] theorem finishData_data (s : State) (d r) : (finishData s d r).data = s.data := rfl
@[simp] theorem finishData_draws (s : State) (d r) : (finishData s d r).draws = s.draws + 1 := rfl
@[simp] theorem finishData_reg (s : State) (d r) (q : Reg) : (finishData s d r).reg q = (s.setReg d r).reg q := rfl

/-! ### The memory instructions -/

/-- LDR completes exactly when its read does, with the word in DST and the pc advanced. -/
theorem execLdr_eq_next {d a : Reg} {o : BitVec 6} {s t : State} :
    execLdr d a o s = .next t ↔ ∃ v, memRead s (effectiveAddress s a o) = .ok v ∧ t = (s.setReg d v).advance := by
  unfold execLdr
  cases memRead s (effectiveAddress s a o) <;> simp [eq_comm]

/-- STR completes exactly when its write does, with the pc advanced. -/
theorem execStr_eq_next {r a : Reg} {o : BitVec 6} {s t : State} :
    execStr r a o s = .next t ↔
      ∃ u, memWrite s (effectiveAddress s a o) (s.reg r) = .ok u ∧ t = u.advance := by
  unfold execStr
  cases memWrite s (effectiveAddress s a o) (s.reg r) <;> simp [eq_comm]

/-- SWP completes exactly when its read does: the write is to the same address. -/
theorem execSwp_eq_next {d a : Reg} {o : BitVec 6} {s t : State} :
    execSwp d a o s = .next t ↔
      ∃ v, memRead s (effectiveAddress s a o) = .ok v ∧
        t = ((s.setData (s.data.writeWord (effectiveAddress s a o) (s.reg d))).setReg d v).advance := by
  unfold execSwp
  cases h : memRead s (effectiveAddress s a o) with
  | error f => simp
  | ok v =>
    obtain ⟨h1, h2, -⟩ := memRead_eq_ok.mp h
    simp [memWrite, h1, h2, eq_comm]

/-! ### The step -/

/-- What a step that goes on has done: nothing in the halted state, else one fetched instruction. -/
theorem step_eq_next {s t : State} :
    step s = .next t ↔
      (s.halted = true ∧ t = s) ∨ (s.halted = false ∧ ∃ i, fetchInstr s = .ok i ∧ exec i s = .next t) := by
  unfold step stayHalted
  cases s.halted <;> cases fetchInstr s <;> simp [eq_comm]

/-- What a fetch that answers an instruction has found: an even pc, a program word, a form for it. -/
theorem fetchInstr_eq_ok {s : State} {i : Instr} :
    fetchInstr s = .ok i ↔
      misaligned s.pc = false ∧ ∃ w, s.prog.readWord s.pc = some w ∧ decodeWord w = .ok i := by
  unfold fetchInstr fetchWord
  cases misaligned s.pc with
  | true => simp
  | false =>
    cases s.prog.readWord s.pc with
    | none => simp
    | some w => cases h : decodeWord w <;> simp [h]

end Sys2Proof.Machine
end

