-- ==== Sys2Proof/Tests/Slice0.lean ====
section
/-! SUPPORT. The model's own tests. Words and expected values are those of 95_test_vectors.md (the section is named at each
group) or of the rule named; then a witness for every statement that has hypotheses. -/

open Sys2Proof Sys2Proof.Machine Sys2Proof.Safety

namespace Sys2Proof.Tests

/-! ### Helpers -/

/-- A state at pc 0x0100 with the given registers r1 to r7 (r0 is 0), flags N Z P C = 0 0 1 1, and data words. -/
def start (r1 r2 r3 r4 r5 r6 r7 : Word) (cells : List (Word × Word)) : State :=
  { State.reset with
    x := ⟨#[0, r1, r2, r3, r4, r5, r6, r7], rfl⟩
    pc := 0x0100#16
    flags := ⟨false, false, true, true⟩
    data := cells.foldl (fun m c => m.writeWord c.1 c.2) [] }

/-- The start registers of sections 2.1 to 2.3. -/
def alu : State := start 0x00F0 0x0FF0 0x8001 0x7FFF 0xFFFF 0x0000 0x1234 []

/-- The start state of section 2.5. -/
def mem : State :=
  start 0x0100 0xBEEF 0x0003 0x7FFE 0xFFFE 0x0000 0x0204
    [(0x0000, 0xAAAA), (0x00C0, 0x5555), (0x00FE, 0x3333), (0x0100, 0x1111), (0x0102, 0x2222), (0x013E, 0x4444),
     (0x7FFE, 0x7777)]

/-- One step with a word placed at the pc. -/
def run (s : State) (w : Nat) : Host.Outcome State Fault Refusal := step (s.withFetchWord 16 w)

/-- The outcome goes on, in a state with a property. -/
def next (o : Host.Outcome State Fault Refusal) (p : State → Bool) : Bool :=
  match o with
  | .next t => p t
  | _ => false

/-- The outcome is a given fault. -/
def faults (o : Host.Outcome State Fault Refusal) (f : Fault) : Bool :=
  match o with
  | .fault g => g == f
  | _ => false

/-- A data operation of section 2.1 to 2.4: its result in a register, N Z P, and pc 0x0102. -/
def gives (w : Nat) (d : Reg) (r : Word) (n z p : Bool) : Bool :=
  next (run alu w) fun t => t.reg d == r && t.flags.N == n && t.flags.Z == z && t.flags.P == p && t.pc == 0x0102

/-- A SUB of section 2.3: also C. -/
def givesC (w : Nat) (r : Word) (n z p c : Bool) : Bool :=
  gives w 0 r n z p && next (run alu w) fun t => t.flags.C == c

/-- The data word at an address. -/
def word (t : State) (a : Word) : Option Word := t.data.readWord a

/-! ### Words that are not well formed: one for each check of 30_encoding.md R90 -/

theorem test_wf_nop : wellFormedWord 0x0000 = true ∧ wellFormedWord 0x0001 = false ∧ wellFormedWord 0x0FFF = false := by decide
theorem test_wf_hlt : wellFormedWord 0x3000 = true ∧ wellFormedWord 0x3001 = false := by decide
theorem test_wf_jpr_dst : wellFormedWord 0x6000 = true ∧ wellFormedWord 0x6200 = false := by decide
theorem test_wf_rti : wellFormedWord 0x6020 = true ∧ wellFormedWord 0x6021 = false ∧ wellFormedWord 0x61E0 = false := by decide
theorem test_wf_jlr : wellFormedWord 0x7FDF = true ∧ wellFormedWord 0x7020 = false := by decide
theorem test_wf_three_operand :
    wellFormedWord 0x8000 = true ∧ wellFormedWord 0x8008 = false ∧ wellFormedWord 0x9010 = false ∧
    wellFormedWord 0xB008 = false ∧ wellFormedWord 0xE010 = false ∧ wellFormedWord 0xF018 = false := by decide
theorem test_wf_shl : wellFormedWord 0xC02F = true ∧ wellFormedWord 0xC008 = false ∧ wellFormedWord 0xC030 = false := by decide
theorem test_wf_shr : wellFormedWord 0xD017 = true ∧ wellFormedWord 0xD008 = false ∧ wellFormedWord 0xD018 = false := by decide
theorem test_row_count : opcodeRows.length = 25 := by decide

/-! ### Decoding: every constructor by a word written out from its pattern in 30_encoding.md R81 -/

theorem test_decode_and :
    decodeWord 0b1111_101_110_000_011#16 = .ok (.andReg 5 6 3) ∧
    decodeWord 0b1111_000_000_1_11000#16 = .ok (.andImm 0 0 0b11000) := by decide
theorem test_decode_orr :
    decodeWord 0b1110_101_110_000_011#16 = .ok (.orrReg 5 6 3) ∧
    decodeWord 0b1110_001_010_1_01111#16 = .ok (.orrImm 1 2 15) := by decide
theorem test_decode_xor :
    decodeWord 0b1011_000_111_000_111#16 = .ok (.xorReg 0 7 7) ∧
    decodeWord 0b1011_000_001_1_11111#16 = .ok (.xorImm 0 1 0b11111) := by decide
theorem test_decode_shl :
    decodeWord 0b1100_000_111_000_010#16 = .ok (.shlReg 0 7 2) ∧
    decodeWord 0b1100_000_000_10_1111#16 = .ok (.shlImm 0 0 15) := by decide
theorem test_decode_shr :
    decodeWord 0b1101_000_000_0_1_0_111#16 = .ok (.shrReg 0 0 true 7) ∧
    decodeWord 0b1101_000_111_0_0_0_010#16 = .ok (.shrReg 0 7 false 2) ∧
    decodeWord 0b1101_000_000_1_1_1111#16 = .ok (.shrImm 0 0 true 15) := by decide
theorem test_decode_add :
    decodeWord 0b1000_111_110_000_101#16 = .ok (.addReg 7 6 5) ∧
    decodeWord 0b1000_000_000_1_11111#16 = .ok (.addImm 0 0 0b11111) := by decide
theorem test_decode_sub :
    decodeWord 0b1001_000_010_000_001#16 = .ok (.subReg 0 2 1) ∧
    decodeWord 0b1001_111_111_1_11111#16 = .ok (.subImm 7 7 0b11111) := by decide
theorem test_decode_lbi :
    decodeWord 0b1010_011_0_10000000#16 = .ok (.lbi 3 0x80) ∧
    decodeWord 0b1010_000_1_11111111#16 = .ok (.lbiShift 0 0xFF) := by decide
theorem test_decode_memory :
    decodeWord 0b0101_111_111_111111#16 = .ok (.ldr 7 7 0b111111) ∧
    decodeWord 0b0100_111_000_111000#16 = .ok (.str 7 0 0b111000) ∧
    decodeWord 0b0001_010_001_000001#16 = .ok (.swp 2 1 1) := by decide
theorem test_decode_brc :
    decodeWord 0b0010_1_1_1_1_10000000#16 = .ok (.brc true true true true 0x80) ∧
    decodeWord 0b0010_0_1_0_1_00000101#16 = .ok (.brc false true false true 5) := by decide
theorem test_decode_jumps :
    decodeWord 0b0110_000_111_0_10000#16 = .ok (.jpr 7 0b10000) ∧
    decodeWord 0b0110_000_000_1_00000#16 = .ok .rti ∧
    decodeWord 0b0111_110_111_0_00010#16 = .ok (.jlr 6 7 2) := by decide
theorem test_decode_fixed :
    decodeWord 0b0000_000000000000#16 = .ok .nop ∧ decodeWord 0b0011_000000000000#16 = .ok .hlt := by decide
theorem test_decode_rejects :
    decodeWord 0x0001#16 = .error (.reserved 0x0001) ∧ decodeWord 0x6030#16 = .error (.reserved 0x6030) ∧
    decodeWord 0x6E20#16 = .error (.reserved 0x6E20) ∧ decodeWord 0xC03F#16 = .error (.reserved 0xC03F) ∧
    decode [0x00] = .error .truncated := by decide
theorem test_decodeTableWord :
    decodeTableWord 16 0x5041 = some (.ldr 0 1 1) ∧ decodeTableWord 16 0x8008 = none := by decide

/-! ### Bitwise (95_test_vectors.md 2.1) -/

theorem test_and_reg : gives 0xF042 0 0x00F0 false false true = true := by decide
theorem test_and_reg_dst_is_sr1 : gives 0xF246 1 0x0000 false true false = true := by decide
theorem test_and_imm : gives 0xF0B0 0 0x0FF0 false false true = true := by decide
theorem test_and_imm_zero : gives 0xF0AF 0 0x0000 false true false = true := by decide
theorem test_orr_reg : gives 0xE042 0 0x0FF0 false false true = true := by decide
theorem test_orr_imm : gives 0xE07F 0 0xFFFF true false false = true := by decide
theorem test_xor_reg : gives 0xB042 0 0x0F00 false false true = true := by decide
theorem test_xor_imm : gives 0xB07F 0 0xFF0F true false false = true := by decide

/-! ### Shifts (2.2) -/

theorem test_shl_imm : gives 0xC0E1 0 0x0002 false false true = true := by decide
theorem test_shl_imm_15 : gives 0xC16F 0 0x8000 true false false = true := by decide
theorem test_shl_reg :
    next (run { alu with x := alu.x.set 2 0x0004 } 0xC1C2) (fun t => t.reg 0 == 0x2340 && t.flags.P) = true := by decide
/-- R145: at distance 16 the result is SHIFT_OVER's, whatever it is, and the instruction completes. -/
theorem test_shl_reg_over :
    ∃ t, exec (.shlReg 0 7 2) (alu.setReg 2 0x0010) = .next t ∧ t.reg 0 = Config.shiftOver .left 0x1234 0x0010 :=
  ⟨_, rfl, rfl⟩
theorem test_shr_imm_logical : gives 0xD0E1 0 0x4000 false false true = true := by decide
theorem test_shr_imm_arith : gives 0xD0FF 0 0xFFFF true false false = true := by decide
theorem test_shr_reg_arith :
    next (run { alu with x := alu.x.set 2 0x0004 } 0xD0D2) (fun t => t.reg 0 == 0xF800 && t.flags.N) = true := by decide
theorem test_shr_reg_over :
    ∃ t, exec (.shrReg 0 3 true 2) (alu.setReg 2 0x0010) = .next t ∧
      t.reg 0 = Config.shiftOver .rightArith 0x8001 0x0010 :=
  ⟨_, rfl, rfl⟩

/-! ### ADD, SUB (2.3) and LBI (2.4) -/

theorem test_add_reg_wraps : gives 0x80C3 0 0x0002 false false true = true := by decide
theorem test_add_reg_same : gives 0x8FC7 7 0x2468 false false true = true := by decide
theorem test_add_imm_signed_overflow : gives 0x8121 0 0x8000 true false false = true := by decide
theorem test_add_imm_negative : gives 0x81B0 0 0xFFF0 true false false = true := by decide
theorem test_sub_reg : givesC 0x9042 0x0F00 false false true true = true := by decide
theorem test_sub_reg_borrow : givesC 0x9146 0x0001 false false true false = true := by decide
theorem test_sub_imm : givesC 0x90EF 0x800E true false false false = true := by decide
theorem test_sub_imm_minus_one : givesC 0x907F 0xFF0F true false false true = true := by decide
theorem test_lbi : gives 0xA080 0 0xFF80 true false false = true := by decide
theorem test_lbi_zero : gives 0xA000 0 0x0000 false true false = true := by decide
theorem test_lbi_shift : gives 0xAFAB 7 0x34AB false false true = true := by decide
theorem test_lbi_shift_sign : gives 0xA380 1 0xF080 true false false = true := by decide

/-! ### Loads, stores and SWP (2.5, 2.8) -/

theorem test_ldr_offsets :
    next (run mem 0x505F) (fun t => t.reg 0 == 0x4444) && next (run mem 0x5060) (fun t => t.reg 0 == 0x5555) &&
    next (run mem 0x5141) (fun t => t.reg 0 == 0xAAAA && t.pc == 0x0102 && t.flags == mem.flags) = true := by decide
theorem test_ldr_faults :
    faults (run mem 0x5101) (.unmappedDevice 0x8000 .read) && faults (run mem 0x51BF) (.unmappedDevice 0xFFFE .read) &&
    faults (run mem 0x50C0) (.misalignedData 0x0003) && faults (run mem 0x51C0) (.uninitialisedRead .data 0x0204) = true := by
  decide
theorem test_str :
    next (run mem 0x447F) (fun t => word t 0x00FE == some 0xBEEF && word t 0x0100 == some 0x1111) &&
    next (run mem 0x4242) (fun t => word t 0x0104 == some 0x0100) = true := by decide
theorem test_str_faults :
    faults (run mem 0x4501) (.unmappedDevice 0x8000 .write) && faults (run mem 0x44C0) (.misalignedData 0x0003) = true := by
  decide
theorem test_swp :
    next (run mem 0x1441) (fun t => t.reg 2 == 0x2222 && word t 0x0102 == some 0xBEEF && t.reg 1 == 0x0100) &&
    next (run mem 0x1240) (fun t => t.reg 1 == 0x1111 && word t 0x0100 == some 0x0100) = true := by decide
theorem test_swp_faults :
    faults (run mem 0x15C0) (.uninitialisedRead .data 0x0204) && faults (run mem 0x1501) (.unmappedDevice 0x8000 .read) = true := by
  decide

/-! ### Control transfer, NOP, HLT (2.6, 2.7, 2.9) and the fetch (programs P6, P8) -/

/-- Row N Z P C = 1 0 0 1 of the table of 2.6, all twelve words. -/
theorem test_brc_row :
    ([(0x2805, 0x010C), (0x2405, 0x0102), (0x2205, 0x0102), (0x2C05, 0x010C), (0x2605, 0x0102), (0x2A05, 0x010C),
      (0x2E05, 0x010C), (0x2B05, 0x010C), (0x2F05, 0x010C), (0x2505, 0x0102), (0x2105, 0x0102), (0x2005, 0x0102)].all
      fun e => next (run (mem.setFlags ⟨true, false, false, true⟩) e.1) fun t => t.pc == e.2) = true := by decide
theorem test_brc_targets :
    next (run mem 0x2E80) (fun t => t.pc == 0x0002) && next (run mem 0x2E7F) (fun t => t.pc == 0x0200) &&
    next (run (mem.setPc 0x0000) 0x2EFE) (fun t => t.pc == 0xFFFE) &&
    next (run (mem.setPc 0xFFFE) 0x2000) (fun t => t.pc == 0x0000) = true := by decide
theorem test_jpr :
    next (run mem 0x61D0) (fun t => t.pc == 0x01E4) && next (run mem 0x6141) (fun t => t.pc == 0x0000) &&
    next (run mem 0x60C0) (fun t => t.pc == 0x0003 && faults (step t) (.misalignedFetch 0x0003)) = true := by decide
theorem test_rti : next (run mem 0x6020) (fun t => t.pc == 0x0102 && t.x == mem.x && t.flags == mem.flags) = true := by decide
theorem test_jlr :
    next (run mem 0x7FC2) (fun t => t.pc == 0x0208 && t.reg 7 == 0x0102) &&
    next (run (mem.setPc 0xFFFE) 0x7DDF) (fun t => t.reg 6 == 0x0000 && t.pc == 0x0202) = true := by decide
theorem test_nop : next (run (mem.setPc 0xFFFE) 0x0000) (fun t => t.pc == 0x0000 && t.x == mem.x) = true := by decide
theorem test_hlt :
    next (run mem 0x3000) (fun t => t.halted && t.pc == 0x0100 && next (step t) (fun u => u == t)) = true := by decide
theorem test_reserved_word : faults (run mem 0x8048) (.reservedEncoding 0x8048 0x0100) = true := by decide
theorem test_off_the_end : faults (step State.reset) (.uninitialisedRead .program 0x0000) = true := by decide

/-! ### A witness for every statement with hypotheses -/

/-- A state whose next word is `w`. -/
def placed (s : State) (w : Nat) : State := s.withFetchWord 16 w

theorem witness_EncodeOfDecode : decodeWord 0x5041#16 = .ok (.ldr 0 1 1) := by decide
theorem witness_DecodeFollowsOpcodeTable :
    decodeWord 0xFFFF#16 = .ok (.andImm 7 7 0b11111) ∧ wellFormedWord 0xFFFF#16 = true ∧
    wellFormedWord 0x0FFF#16 = false := by decide
theorem witness_OpcodeRowsDisjoint :
    (Instr.nop.row ∈ opcodeRows ∧ Instr.nop.row.selects 0x0000#16 = true) ∧
    (Instr.rti.row ∈ opcodeRows ∧ Instr.rti.row.selects 0x6020#16 = true) := by decide
theorem witness_OnlyOneReturnFromInterruptWord :
    (0x6020#16).extractLsb' 12 4 = 0b0110#4 ∧ (0x6020#16).getLsbD 5 = true ∧
    (0x6021#16).extractLsb' 12 4 = 0b0110#4 ∧ (0x6021#16).getLsbD 5 = true ∧ 0x6021#16 ≠ 0x6020#16 := by decide
theorem witness_StepRunsDecodedInstruction :
    (placed mem 0x5041).halted = false ∧ (placed mem 0x5041).pc.toNat % 2 = 0 ∧
    (placed mem 0x5041).prog.read (placed mem 0x5041).pc.toNat = some 0x41 ∧
    (placed mem 0x5041).prog.read ((placed mem 0x5041).pc.toNat + 1) = some 0x50 ∧
    decode [0x41, 0x50] = .ok (.ldr 0 1 1, []) := by decide
theorem witness_StepStopsBeforeExecution_odd :
    (mem.setPc 0xFFFF).halted = false ∧ (mem.setPc 0xFFFF).pc.toNat % 2 = 1 := by decide
theorem witness_StepStopsBeforeExecution_unwritten :
    (mem.setPc 0xFFFE).halted = false ∧ (mem.setPc 0xFFFE).pc.toNat % 2 = 0 ∧
    (mem.setPc 0xFFFE).prog.readWord (mem.setPc 0xFFFE).pc = none := by decide
theorem witness_StepStopsBeforeExecution_reserved :
    (placed mem 0x0001).halted = false ∧ (placed mem 0x0001).pc.toNat % 2 = 0 ∧
    (placed mem 0x0001).prog.readWord (placed mem 0x0001).pc = some 0x0001 ∧ wellFormedWord 0x0001#16 = false := by decide
theorem witness_HaltedProcessorStays : (mem.setHalted true).halted = true := by decide
theorem witness_OnlyHltHalts_sets :
    ∃ t, step (placed mem 0x3000) = .next t ∧ (placed mem 0x3000).halted = false ∧ t.halted = true := ⟨_, rfl, rfl, rfl⟩
theorem witness_OnlyHltHalts_keeps :
    (∃ t, step (mem.setHalted true) = .next t ∧ (mem.setHalted true).halted = true) ∧
    (∃ t, exec .nop (mem.setHalted true) = .next t ∧ (mem.setHalted true).halted = true) :=
  ⟨⟨_, rfl, rfl⟩, ⟨_, rfl, rfl⟩⟩

/-- Placing a program word keeps the invariant. -/
theorem placed_inv {s : State} (w : Nat) (h : Inv s) (he : s.pc.toNat % 2 = 0) : Inv (placed s w) where
  progForm := Memory.writeWord_wf _ _ h.progForm
  dataForm := h.dataForm
  dataWords := h.dataWords
  dataRange := h.dataRange
  progRange := fun c hc => by
    rcases Memory.mem_writeWord hc with hc | hc | hc
    · omega
    · omega
    · exact h.progRange c hc
  progWords := fun k => by
    show ((s.prog.writeWord _ _).read _).isSome = ((s.prog.writeWord _ _).read _).isSome
    simp only [Memory.read_writeWord]
    by_cases hk : 2 * k = s.pc.toNat
    · simp [hk]
    · rw [if_neg (by omega), if_neg hk, if_neg (by omega), if_neg (by omega)]
      exact h.progWords k
/-- A store as the first instruction after reset. -/
theorem witness_StepKeepsInvariant :
    Inv (placed State.reset 0x4000) ∧ ∃ t, step (placed State.reset 0x4000) = .next t :=
  ⟨placed_inv _ ⟨rfl, rfl, fun _ => rfl, fun _ => rfl, nofun, nofun⟩ rfl, ⟨_, rfl⟩⟩
theorem witness_StepKeepsProgram :
    (∃ t, step (placed mem 0x4440) = .next t) ∧ (∃ t, exec (.str 2 1 0) mem = .next t) := ⟨⟨_, rfl⟩, ⟨_, rfl⟩⟩
theorem witness_ShiftRegisterResult :
    ((alu.setReg 2 0x000F).reg 2).toNat ≤ 15 ∧ ((alu.setReg 2 0x0000).reg 2).toNat ≤ 15 := by decide
theorem witness_ShiftRegisterOverDistance :
    16 ≤ ((alu.setReg 2 0x0010).reg 2).toNat ∧ 16 ≤ ((alu.setReg 2 0xFFFF).reg 2).toNat := by decide
theorem witness_FlagsFollowResult :
    isDataOp (.andReg 0 1 2) = true ∧ destination (.andReg 0 1 2) = some 0 ∧ ∃ t, exec (.andReg 0 1 2) alu = .next t :=
  ⟨rfl, rfl, _, rfl⟩
theorem witness_ExactlyOneOfNZP :
    (isDataOp (.lbi 0 0) = true ∧ ∃ t, exec (.lbi 0 0) alu = .next t) ∧
    (isDataOp .nop = false ∧ (∃ t, exec .nop alu = .next t) ∧ ExactlyOne alu.flags) :=
  ⟨⟨rfl, _, rfl⟩, rfl, ⟨_, rfl⟩, .inr (.inr ⟨rfl, rfl, rfl⟩)⟩
theorem witness_OnlyDataOperationsWriteFlags :
    isDataOp (.subReg 0 1 2) = true ∧ isDataOp (.ldr 0 1 0) = false ∧ ∃ t, exec (.ldr 0 1 0) mem = .next t :=
  ⟨rfl, rfl, _, rfl⟩
theorem witness_OnlyBranchReadsFlags : ∀ n z p c imm8, Instr.ldr 0 1 0 ≠ .brc n z p c imm8 := by
  intros; exact Instr.noConfusion
theorem witness_CarryFlag :
    (∃ t, exec (.subReg 0 1 2) alu = .next t) ∧ (∃ t, exec (.subImm 0 1 0) alu = .next t) ∧
    (∃ t, exec (.addReg 0 1 2) alu = .next t ∧ isDataOp (.addReg 0 1 2) = true ∧ isSub (.addReg 0 1 2) = false) ∧
    (isDataOp (.ldr 0 1 0) = false ∧ ∃ t, exec (.ldr 0 1 0) mem = .next t) :=
  ⟨⟨_, rfl⟩, ⟨_, rfl⟩, ⟨_, rfl, rfl, rfl⟩, rfl, _, rfl⟩
/-- 0x0FF0 minus 0x00F0 fits 16 bits signed; 0x7FFF minus 0x8001 does not. -/
theorem witness_SignedComparison :
    (∃ t, exec (.subReg 0 1 2) alu = .next t) ∧
    (-32768 ≤ (alu.reg 2).toInt - (alu.reg 1).toInt ∧ (alu.reg 2).toInt - (alu.reg 1).toInt ≤ 32767) ∧
    (∃ t, exec (.subReg 0 3 4) alu = .next t) ∧
    ¬ (-32768 ≤ (alu.reg 4).toInt - (alu.reg 3).toInt ∧ (alu.reg 4).toInt - (alu.reg 3).toInt ≤ 32767) :=
  ⟨⟨_, rfl⟩, by decide, ⟨_, rfl⟩, by decide⟩
theorem witness_ConditionTable :
    (∃ t, exec (.subReg 0 1 2) alu = .next t) ∧
    (-32768 ≤ (alu.reg 2).toInt - (alu.reg 1).toInt ∧ (alu.reg 2).toInt - (alu.reg 1).toInt ≤ 32767) ∧
    (∃ t, exec (.subImm 0 1 0) alu = .next t) ∧
    (isDataOp (.xorReg 0 1 1) = true ∧ ∃ t, exec (.xorReg 0 1 1) alu = .next t) :=
  ⟨⟨_, rfl⟩, by decide, ⟨_, rfl⟩, rfl, _, rfl⟩
/-- The first and the last word of generic memory. -/
theorem witness_LdrLoads :
    ((effectiveAddress mem 4 0).toNat % 2 = 0 ∧ (effectiveAddress mem 4 0).toNat < 0x8000 ∧
      mem.data.readWord (effectiveAddress mem 4 0) = some 0x7777) ∧
    ((effectiveAddress mem 5 1).toNat % 2 = 0 ∧ (effectiveAddress mem 5 1).toNat < 0x8000 ∧
      mem.data.readWord (effectiveAddress mem 5 1) = some 0xAAAA) := by decide
theorem witness_StrStores :
    (effectiveAddress mem 4 0).toNat % 2 = 0 ∧ (effectiveAddress mem 4 0).toNat < 0x8000 := by decide
theorem witness_SwpExchanges :
    (effectiveAddress mem 1 1).toNat % 2 = 0 ∧ (effectiveAddress mem 1 1).toNat < 0x8000 ∧
    mem.data.readWord (effectiveAddress mem 1 1) = some 0x2222 := by decide
theorem witness_MisalignedDataFaults : (mem.reg 3).toNat % 2 = 1 := by decide
theorem witness_DeviceHalfFaults :
    ((effectiveAddress mem 4 1).toNat % 2 = 0 ∧ (effectiveAddress mem 4 1).toNat = 0x8000) ∧
    ((effectiveAddress mem 5 0).toNat % 2 = 0 ∧ (effectiveAddress mem 5 0).toNat = 0xFFFE) := by decide
theorem witness_UnwrittenWordFaults :
    (effectiveAddress mem 4 0b111111).toNat % 2 = 0 ∧ (effectiveAddress mem 4 0b111111).toNat < 0x8000 ∧
    mem.data.readWord (effectiveAddress mem 4 0b111111) = none := by decide
theorem witness_ScaledOffsets : 5 ≤ 8 ∧ 6 ≤ 8 ∧ 8 ≤ 8 := by decide
/-- The last aligned and the last odd address, the ends of the two halves, written and unwritten, and a store. -/
theorem witness_MemReadCases :
    (0xFFFF#16).toNat % 2 = 1 ∧ ((0x8000#16).toNat % 2 = 0 ∧ 0x8000 ≤ (0x8000#16).toNat) ∧
    ((0x7FFC#16).toNat % 2 = 0 ∧ (0x7FFC#16).toNat < 0x8000 ∧ mem.data.readWord 0x7FFC = none) ∧
    ((0x7FFE#16).toNat % 2 = 0 ∧ (0x7FFE#16).toNat < 0x8000 ∧ mem.data.readWord 0x7FFE = some 0x7777) ∧
    (∃ t, memWrite mem 0x7FFE 0x1234 = .ok t ∧ 0x0100#16 ≠ 0x7FFE#16) :=
  ⟨by decide, by decide, by decide, by decide, _, rfl, by decide⟩
theorem witness_MemWriteCases :
    (0xFFFF#16).toNat % 2 = 1 ∧ ((0x8000#16).toNat % 2 = 0 ∧ 0x8000 ≤ (0x8000#16).toNat) ∧
    ((0x7FFE#16).toNat % 2 = 0 ∧ (0x7FFE#16).toNat < 0x8000) := by decide
theorem witness_PlainStorage :
    (∃ t, exec (.str 2 1 0) mem = .next t ∧ effectiveAddress t 1 0 = effectiveAddress mem 1 0) ∧
    (∃ t, exec (.str 2 1 0) mem = .next t ∧ 0x0102#16 ≠ effectiveAddress mem 1 0) ∧
    (∃ t, exec (.ldr 0 1 0) mem = .next t) :=
  ⟨⟨_, rfl, rfl⟩, ⟨_, rfl, by decide⟩, ⟨_, rfl⟩⟩
theorem witness_SwapTwiceRestores : (2 : Reg) ≠ 1 ∧ ∃ t, exec (.swp 2 1 0) mem = .next t := ⟨by decide, _, rfl⟩
/-- Flags that differ from the state's only where BRC.np does not look: in Z and in C. -/
theorem witness_BrcReadsSelectedFlags :
    let f : Flags := ⟨false, true, true, false⟩
    f.N = mem.flags.N ∧ f.P = mem.flags.P ∧ f.Z ≠ mem.flags.Z ∧ f.C ≠ mem.flags.C := by decide
theorem witness_NopOnlyAdvances :
    (0x0000#16).extractLsb' 12 4 = 0b0000#4 ∧ (0x0FFF#16).extractLsb' 12 4 = 0b0000#4 ∧ 0x0FFF#16 ≠ 0x0000#16 := by decide
theorem witness_HltHalts :
    (0x3000#16).extractLsb' 12 4 = 0b0011#4 ∧ (0x3FFF#16).extractLsb' 12 4 = 0b0011#4 ∧ 0x3FFF#16 ≠ 0x3000#16 ∧
    ∃ t, exec .hlt mem = .next t := ⟨by decide, by decide, by decide, _, rfl⟩
theorem witness_CallReturns :
    ∃ t, exec (.jlr 7 7 2) mem = .next t ∧ ∃ u, exec .nop t = .next u ∧ u.reg 7 = t.reg 7 := ⟨_, rfl, _, rfl, rfl⟩
theorem witness_PcOfEveryInstruction :
    (∃ t, exec (.brc false false true false 5) mem = .next t) ∧ BranchTaken false false true false mem.flags ∧
    ¬ BranchTaken true true false true mem.flags ∧ (∃ t, exec (.jpr 7 0) mem = .next t) ∧
    (∃ t, exec (.jlr 6 7 0) mem = .next t) ∧ (∃ t, exec .hlt mem = .next t) ∧ (∃ t, exec .rti mem = .next t) :=
  ⟨⟨_, rfl⟩, ⟨.inr (.inr ⟨rfl, rfl⟩), nofun⟩, by simp [BranchTaken, mem, start], ⟨_, rfl⟩, ⟨_, rfl⟩, ⟨_, rfl⟩, ⟨_, rfl⟩⟩
theorem witness_PcParity :
    ((∀ a imm5, Instr.nop ≠ .jpr a imm5) ∧ (∀ d a imm5, Instr.nop ≠ .jlr d a imm5) ∧
      (∃ t, exec .nop mem = .next t) ∧ mem.pc.toNat % 2 = 0) ∧
    (∃ t, exec (.jpr 3 0) mem = .next t ∧ (mem.reg 3).toNat % 2 = 1 ∧ t.halted = false) :=
  ⟨⟨nofun, nofun, ⟨_, rfl⟩, by decide⟩, _, rfl, by decide, rfl⟩
/-- NOP, which does not reach the data space, and LDR, which reads it and is neither STR nor SWP. -/
theorem witness_HarvardSeparation :
    (reachesData .nop = false ∧ ∃ t, exec .nop mem = .next t) ∧
    ((∀ src a o, Instr.ldr 0 1 0 ≠ .str src a o) ∧ (∀ d a o, Instr.ldr 0 1 0 ≠ .swp d a o) ∧
      ∃ t, exec (.ldr 0 1 0) mem = .next t) :=
  ⟨⟨rfl, _, rfl⟩, nofun, nofun, _, rfl⟩
theorem witness_RegistersWritten :
    (∃ t, exec (.swp 2 1 0) mem = .next t) ∧ destination (.swp 2 1 0) ≠ some 1 := ⟨⟨_, rfl⟩, by decide⟩
theorem witness_RegistersRead : 0 ∉ sources (.ldr 0 1 0) ∧ 3 ∉ sources (.swp 2 1 0) := by decide

end Sys2Proof.Tests
end

section
/-! PROOFS of the statements of 10_state.md. Each instruction form makes one change of the state, out of a few kinds; the
theorem `exec_agree` says which, once for every instruction, and that the change depends on nothing but what the form
reads. Frames and invariants are then read off the change, noninterference off its commuting with other updates. -/

namespace Sys2Proof.Machine

open Sys2Proof.Safety

/-! ### Numbers: the pc, the targets, the flags of a result, the carry -/

theorem State.nextPc_toNat (s : State) : s.nextPc.toNat = (s.pc.toNat + 2) % 65536 := by
  simp [State.nextPc, BitVec.toNat_add]

theorem scaled_eq_ofInt {n : Nat} (v : BitVec n) : scaled v = BitVec.ofInt 16 (2 * v.toInt) := by
  rw [scaled, sext, BitVec.signExtend, BitVec.shiftLeft_eq_mul_twoPow, BitVec.ofInt_mul, BitVec.mul_comm]
  rfl

/-- Adding a scaled offset adds twice its signed value, modulo 65536 (30_encoding.md R88, 10_state.md R26). -/
theorem add_scaled_toNat {n : Nat} (x : Word) (v : BitVec n) :
    ((x + scaled v).toNat : Int) = (x.toNat + 2 * v.toInt) % 65536 := by
  rw [scaled_eq_ofInt, BitVec.toNat_add, BitVec.toNat_ofInt]
  omega

theorem add_scaled_parity {n : Nat} (x : Word) (v : BitVec n) : (x + scaled v).toNat % 2 = x.toNat % 2 := by
  have h := add_scaled_toNat x v
  omega

theorem branchTarget_toNat (s : State) (imm8 : BitVec 8) :
    ((branchTarget s imm8).toNat : Int) = (s.pc.toNat + 2 + 2 * imm8.toInt) % 65536 := by
  rw [branchTarget, add_scaled_toNat, State.nextPc_toNat]
  omega

theorem branchCondition_iff {n z p c : Bool} {f : Flags} :
    branchCondition n z p c f = true ↔ BranchTaken n z p c f := by
  cases c <;> simp [branchCondition, BranchTaken, or_assoc]

theorem msb_iff_le_toNat (r : Word) : r.msb = true ↔ 0x8000 ≤ r.toNat := by
  simp [BitVec.msb_eq_decide]

theorem msb_iff_toInt_neg (r : Word) : r.msb = true ↔ r.toInt < 0 := by
  simp [BitVec.msb_eq_toInt]

theorem toInt_pos_iff (r : Word) : 0 < r.toInt ↔ 1 ≤ r.toNat ∧ r.toNat ≤ 0x7FFF := by
  rw [BitVec.toInt_eq_toNat_cond]
  split <;> omega

theorem resultFlags_Z_iff (r : Word) (c : Bool) : (resultFlags r c).Z = true ↔ r.toNat = 0 := by
  simp [resultFlags, BitVec.toNat_eq]

theorem resultFlags_P_iff (r : Word) (c : Bool) : (resultFlags r c).P = true ↔ r ≠ 0#16 ∧ r.msb = false := by
  simp [resultFlags]

theorem resultFlags_P_iff_range (r : Word) (c : Bool) :
    (resultFlags r c).P = true ↔ 1 ≤ r.toNat ∧ r.toNat ≤ 0x7FFF := by
  have hmsb := msb_iff_le_toNat r
  rw [resultFlags_P_iff, ne_eq, BitVec.toNat_eq, ← Bool.not_eq_true, hmsb]
  simp only [BitVec.toNat_ofNat]
  omega

theorem exactlyOne_resultFlags (r : Word) (c : Bool) : ExactlyOne (resultFlags r c) := by
  by_cases h : r = 0#16
  · subst h; exact .inr (.inl ⟨rfl, rfl, rfl⟩)
  · cases hm : r.msb <;> simp [ExactlyOne, resultFlags, h, hm]

theorem subSum_toNat (m s : Word) : (subSum m s).toNat = m.toNat + (65535 - s.toNat) + 1 := by
  simp only [subSum, BitVec.toNat_add, BitVec.toNat_setWidth, BitVec.toNat_not, BitVec.toNat_ofNat]
  omega

/-- The carry-out of a subtraction says that no borrow occurred (42_arith.md R164). -/
theorem subCarry_iff (m s : Word) : subCarry m s = true ↔ s.toNat ≤ m.toNat := by
  have hmsb : subCarry m s = (subSum m s).msb := (BitVec.msb_eq_getLsbD_last _).symm
  rw [hmsb, BitVec.msb_eq_decide, subSum_toNat, decide_eq_true_eq]
  omega

/-! ### Memory accesses that stop -/

theorem memRead_unwritten {s : State} {a : Word} (he : a.toNat % 2 = 0) (hg : a.toNat < 0x8000)
    (hw : s.data.readWord a = none) : memRead s a = .error (.uninitialisedRead .data a) := by
  simp [memRead, misaligned_eq_false.mpr he, deviceHalf_eq_false.mpr hg, hw]

theorem execLdr_of_memRead_error {s : State} {d a : Reg} {o : BitVec 6} {f : Fault}
    (h : memRead s (effectiveAddress s a o) = .error f) : execLdr d a o s = .fault f := by
  simp [execLdr, h]

theorem execSwp_of_memRead_error {s : State} {d a : Reg} {o : BitVec 6} {f : Fault}
    (h : memRead s (effectiveAddress s a o) = .error f) : execSwp d a o s = .fault f := by
  simp [execSwp, h]

theorem execStr_of_memWrite_error {s : State} {r a : Reg} {o : BitVec 6} {f : Fault}
    (h : memWrite s (effectiveAddress s a o) (s.reg r) = .error f) : execStr r a o s = .fault f := by
  simp [execStr, h]

theorem memRead_congr {s s' : State} (h : s'.data = s.data) (a : Word) : memRead s' a = memRead s a := by
  simp only [memRead, h]

/-- Whether a data write stops, and with what, its address alone decides. -/
theorem memWrite_cases (a v : Word) :
    (misaligned a = false ∧ deviceHalf a = false) ∨ ∃ f, ∀ s, memWrite s a v = .error f := by
  unfold memWrite
  cases misaligned a with
  | true => exact .inr ⟨_, fun _ => rfl⟩
  | false =>
    cases deviceHalf a with
    | true => exact .inr ⟨_, fun _ => rfl⟩
    | false => exact .inl ⟨rfl, rfl⟩

/-! ### The change an instruction makes -/

/-- `u` is the change of state that `i` makes when it is executed in `s`. What of the change depends on the state through
the operands is taken from `s`; the pc, the draw counter and data memory are those of the state that `u` is applied to. -/
inductive Effect (s : State) : Instr → (State → State) → Prop
  | free {i : Instr} {d : Reg} (r : Word) (hi : isDataOp i = true) (hs : isSub i = false)
      (hd : destination i = some d) : Effect s i fun t => finishData t d r
  | sub {i : Instr} {d : Reg} (r : Word) (c : Bool) (hi : isDataOp i = true) (hs : isSub i = true)
      (hd : destination i = some d) : Effect s i fun t => finishWithCarry t d r c
  | ldr {d a : Reg} {o : BitVec 6} {v : Word} (hv : memRead s (effectiveAddress s a o) = .ok v) :
      Effect s (.ldr d a o) fun t => (t.setReg d v).advance
  | str {r a : Reg} {o : BitVec 6} (he : misaligned (effectiveAddress s a o) = false)
      (hg : deviceHalf (effectiveAddress s a o) = false) :
      Effect s (.str r a o) fun t => (t.setData (t.data.writeWord (effectiveAddress s a o) (s.reg r))).advance
  | swp {d a : Reg} {o : BitVec 6} {v : Word} (hv : memRead s (effectiveAddress s a o) = .ok v) :
      Effect s (.swp d a o) fun t =>
        ((t.setData (t.data.writeWord (effectiveAddress s a o) (s.reg d))).setReg d v).advance
  | brcTaken {n z p c : Bool} {imm8 : BitVec 8} (h : branchCondition n z p c s.flags = true) :
      Effect s (.brc n z p c imm8) fun t => t.setPc (branchTarget t imm8)
  | brcNotTaken {n z p c : Bool} {imm8 : BitVec 8} (h : branchCondition n z p c s.flags = false) :
      Effect s (.brc n z p c imm8) State.advance
  | jpr {a : Reg} {imm5 : BitVec 5} : Effect s (.jpr a imm5) fun t => t.setPc (jumpTarget s a imm5)
  | rti : Effect s .rti State.advance
  | jlr {d a : Reg} {imm5 : BitVec 5} :
      Effect s (.jlr d a imm5) fun t => (t.setReg d t.nextPc).setPc (jumpTarget s a imm5)
  | nop : Effect s .nop State.advance
  | hlt : Effect s .hlt fun t => t.setHalted true

/-- Two states agree on everything an instruction reads through its operands: its source registers, for LDR, STR and SWP
data memory, for BRC the flags. -/
structure Agrees (i : Instr) (s s' : State) : Prop where
  regs : ∀ r ∈ sources i, s'.reg r = s.reg r
  data : reachesData i = true → s'.data = s.data
  flags : ∀ n z p c imm8, i = .brc n z p c imm8 → s'.flags = s.flags

theorem Agrees.refl (i : Instr) (s : State) : Agrees i s s := ⟨fun _ _ => rfl, fun _ => rfl, fun _ _ _ _ _ _ => rfl⟩

theorem Agrees.setReg {i : Instr} (s : State) {r : Reg} (v : Word) (hr : r ∉ sources i) : Agrees i s (s.setReg r v) :=
  ⟨fun _ hq => State.reg_setReg_other s v (ne_of_mem_of_not_mem hq hr), fun _ => rfl, fun _ _ _ _ _ _ => rfl⟩

theorem Agrees.setFlags {i : Instr} (s : State) (f : Flags) (hi : ∀ n z p c imm8, i ≠ .brc n z p c imm8) :
    Agrees i s (s.setFlags f) :=
  ⟨fun _ _ => rfl, fun _ => rfl, fun n z p c imm8 h => absurd h (hi n z p c imm8)⟩

/-- In both of two states an instruction makes the same change, or stops with the same fault. -/
def SameEffect (i : Instr) (s s' : State) : Prop :=
  (∃ u, Effect s i u ∧ exec i s = .next (u s) ∧ exec i s' = .next (u s')) ∨
    ∃ f, exec i s = .fault f ∧ exec i s' = .fault f

theorem Agrees.one {i : Instr} {s s' : State} {a : Reg} (h : Agrees i s s') (hi : sources i = [a]) :
    s'.reg a = s.reg a := h.regs a (by simp [hi])

theorem Agrees.two {i : Instr} {s s' : State} {a b : Reg} (h : Agrees i s s') (hi : sources i = [a, b]) :
    s'.reg a = s.reg a ∧ s'.reg b = s.reg b := ⟨h.regs a (by simp [hi]), h.regs b (by simp [hi])⟩

/-- A data operation other than SUB on two registers. -/
theorem sameEffect_two {i : Instr} {d a b : Reg} {s s' : State} (op : Word → Word → Word) (h : Agrees i s s')
    (hi : isDataOp i = true) (hs : isSub i = false) (hd : destination i = some d) (hsrc : sources i = [a, b])
    (he : ∀ t, exec i t = .next (finishData t d (op (t.reg a) (t.reg b)))) : SameEffect i s s' := by
  obtain ⟨ha, hb⟩ := h.two hsrc
  exact .inl ⟨_, .free (op (s.reg a) (s.reg b)) hi hs hd, he s, by rw [he, ha, hb]⟩

/-- A data operation other than SUB on one register. -/
theorem sameEffect_one {i : Instr} {d a : Reg} {s s' : State} (op : Word → Word) (h : Agrees i s s')
    (hi : isDataOp i = true) (hs : isSub i = false) (hd : destination i = some d) (hsrc : sources i = [a])
    (he : ∀ t, exec i t = .next (finishData t d (op (t.reg a)))) : SameEffect i s s' :=
  .inl ⟨_, .free (op (s.reg a)) hi hs hd, he s, by rw [he, h.one hsrc]⟩

theorem sameEffect_subReg {d a b : Reg} {s s' : State} (ha : s'.reg a = s.reg a) (hb : s'.reg b = s.reg b) :
    SameEffect (.subReg d a b) s s' :=
  .inl ⟨_, .sub _ _ rfl rfl rfl, rfl, by rw [exec, execSubReg, ha, hb]⟩

theorem sameEffect_subImm {d a : Reg} {imm5 : BitVec 5} {s s' : State} (ha : s'.reg a = s.reg a) :
    SameEffect (.subImm d a imm5) s s' :=
  .inl ⟨_, .sub _ _ rfl rfl rfl, rfl, by rw [exec, execSubImm, ha]⟩

theorem effectiveAddress_congr {s s' : State} {a : Reg} (h : s'.reg a = s.reg a) (o : BitVec 6) :
    effectiveAddress s' a o = effectiveAddress s a o := by
  rw [effectiveAddress, effectiveAddress, h]

theorem sameEffect_ldr {d a : Reg} {o : BitVec 6} {s s' : State} (ha : s'.reg a = s.reg a)
    (hm : s'.data = s.data) : SameEffect (.ldr d a o) s s' := by
  have hread : memRead s' (effectiveAddress s' a o) = memRead s (effectiveAddress s a o) := by
    rw [effectiveAddress_congr ha, memRead_congr hm]
  cases h : memRead s (effectiveAddress s a o) with
  | error f => exact .inr ⟨f, execLdr_of_memRead_error h, execLdr_of_memRead_error (hread.trans h)⟩
  | ok v => exact .inl ⟨_, .ldr h, execLdr_eq_next.mpr ⟨v, h, rfl⟩, execLdr_eq_next.mpr ⟨v, hread.trans h, rfl⟩⟩

theorem sameEffect_str {r a : Reg} {o : BitVec 6} {s s' : State} (hr : s'.reg r = s.reg r)
    (ha : s'.reg a = s.reg a) : SameEffect (.str r a o) s s' := by
  rcases memWrite_cases (effectiveAddress s a o) (s.reg r) with ⟨he, hg⟩ | ⟨f, hf⟩
  · refine .inl ⟨_, .str he hg, execStr_eq_next.mpr ⟨_, memWrite_eq_ok.mpr ⟨he, hg, rfl⟩, rfl⟩, ?_⟩
    refine execStr_eq_next.mpr ⟨_, ?_, rfl⟩
    rw [effectiveAddress_congr ha, hr]
    exact memWrite_eq_ok.mpr ⟨he, hg, rfl⟩
  · refine .inr ⟨f, execStr_of_memWrite_error (hf s), execStr_of_memWrite_error ?_⟩
    rw [effectiveAddress_congr ha, hr]
    exact hf s'

theorem sameEffect_swp {d a : Reg} {o : BitVec 6} {s s' : State} (hd : s'.reg d = s.reg d)
    (ha : s'.reg a = s.reg a) (hm : s'.data = s.data) : SameEffect (.swp d a o) s s' := by
  have hread : memRead s' (effectiveAddress s' a o) = memRead s (effectiveAddress s a o) := by
    rw [effectiveAddress_congr ha, memRead_congr hm]
  cases h : memRead s (effectiveAddress s a o) with
  | error f => exact .inr ⟨f, execSwp_of_memRead_error h, execSwp_of_memRead_error (hread.trans h)⟩
  | ok v =>
    refine .inl ⟨_, .swp h, execSwp_eq_next.mpr ⟨v, h, rfl⟩, execSwp_eq_next.mpr ⟨v, hread.trans h, ?_⟩⟩
    rw [effectiveAddress_congr ha, hd]

theorem sameEffect_brc {n z p c : Bool} {imm8 : BitVec 8} {s s' : State} (hf : s'.flags = s.flags) :
    SameEffect (.brc n z p c imm8) s s' := by
  cases h : branchCondition n z p c s.flags with
  | true => exact .inl ⟨_, .brcTaken h, by simp [exec, execBrc, h], by simp [exec, execBrc, hf, h]⟩
  | false =>
    exact .inl ⟨_, .brcNotTaken h, by simp [exec, execBrc, h, State.advance],
      by simp [exec, execBrc, hf, h, State.advance]⟩

/-- What an instruction does is a change of one of the kinds of `Effect` or a fault, and in a state that agrees on what it
reads it is the same one. -/
theorem exec_agree {i : Instr} {s s' : State} (h : Agrees i s s') : SameEffect i s s' := by
  cases i with
  | andReg => exact sameEffect_two (· &&& ·) h rfl rfl rfl rfl fun _ => rfl
  | andImm d a imm5 => exact sameEffect_one (· &&& sext imm5) h rfl rfl rfl rfl fun _ => rfl
  | orrReg => exact sameEffect_two (· ||| ·) h rfl rfl rfl rfl fun _ => rfl
  | orrImm d a imm5 => exact sameEffect_one (· ||| sext imm5) h rfl rfl rfl rfl fun _ => rfl
  | xorReg => exact sameEffect_two (· ^^^ ·) h rfl rfl rfl rfl fun _ => rfl
  | xorImm d a imm5 => exact sameEffect_one (· ^^^ sext imm5) h rfl rfl rfl rfl fun _ => rfl
  | addReg => exact sameEffect_two (· + ·) h rfl rfl rfl rfl fun _ => rfl
  | addImm d a imm5 => exact sameEffect_one (· + sext imm5) h rfl rfl rfl rfl fun _ => rfl
  | shlReg => exact sameEffect_two (shiftWord .left) h rfl rfl rfl rfl fun _ => rfl
  | shlImm d a imm4 => exact sameEffect_one (shiftWord .left · (zext imm4)) h rfl rfl rfl rfl fun _ => rfl
  | shrReg d v a => exact sameEffect_two (shiftWord (rightShift a)) h rfl rfl rfl rfl fun _ => rfl
  | shrImm d v a imm4 => exact sameEffect_one (shiftWord (rightShift a) · (zext imm4)) h rfl rfl rfl rfl fun _ => rfl
  | lbi d imm8 => exact .inl ⟨_, .free (sext imm8) rfl rfl rfl, rfl, rfl⟩
  | lbiShift d imm8 => exact sameEffect_one (shiftInByte · imm8) h rfl rfl rfl rfl fun _ => rfl
  | subReg => exact sameEffect_subReg (h.two rfl).1 (h.two rfl).2
  | subImm => exact sameEffect_subImm (h.one rfl)
  | ldr => exact sameEffect_ldr (h.one rfl) (h.data rfl)
  | str => exact sameEffect_str (h.two rfl).1 (h.two rfl).2
  | swp => exact sameEffect_swp (h.two rfl).1 (h.two rfl).2 (h.data rfl)
  | brc => exact sameEffect_brc (h.flags _ _ _ _ _ rfl)
  | jpr => exact .inl ⟨_, .jpr, rfl, by rw [exec, execJpr, jumpTarget, h.one rfl, jumpTarget]⟩
  | jlr => exact .inl ⟨_, .jlr, rfl, by rw [exec, execJlr, jumpTarget, h.one rfl, jumpTarget]⟩
  | rti => exact .inl ⟨_, .rti, rfl, rfl⟩
  | nop => exact .inl ⟨_, .nop, rfl, rfl⟩
  | hlt => exact .inl ⟨_, .hlt, rfl, rfl⟩

/-- An instruction that goes on has made a change of one of the kinds of `Effect`. -/
theorem effect_of_exec {i : Instr} {s t : State} (h : exec i s = .next t) : ∃ u, Effect s i u ∧ t = u s := by
  rcases exec_agree (.refl i s) with ⟨u, hu, he, -⟩ | ⟨f, hf, -⟩
  · exact ⟨u, hu, Host.Outcome.next.inj (h.symm.trans he)⟩
  · exact nomatch h.symm.trans hf

theorem mapNext_id (o : Host.Outcome State Fault Refusal) : mapNext (fun t => t) o = o := by
  cases o <;> rfl

/-- Noninterference: from a state that agrees on what is read, the outcome is the same up to `g` when every change the
instruction can make carries the difference of the two states to `g`. -/
theorem exec_eq_mapNext {i : Instr} {s s' : State} {g : State → State} (h : Agrees i s s')
    (hg : ∀ u, Effect s i u → u s' = g (u s)) : exec i s' = mapNext g (exec i s) := by
  rcases exec_agree h with ⟨u, hu, he, he'⟩ | ⟨f, hf, hf'⟩
  · rw [he, he', hg u hu]; rfl
  · rw [hf, hf']; rfl

/-! ### What each kind of change does and leaves alone -/

/-- The forms that do not simply move the pc two on (10_state.md R25). -/
def setsPc : Instr → Bool
  | .brc _ _ _ _ _ | .jpr _ _ | .jlr _ _ _ | .hlt => true
  | _ => false

namespace Effect

variable {i : Instr} {s : State} {u : State → State}

theorem prog (h : Effect s i u) (t : State) : (u t).prog = t.prog := by cases h <;> rfl

/-- No change but HLT's touches the halted bit (10_state.md R38). -/
theorem halted (h : Effect s i u) (t : State) : (i = .hlt ∧ (u t).halted = true) ∨ (u t).halted = t.halted := by
  cases h with
  | hlt => exact .inl ⟨rfl, rfl⟩
  | _ => exact .inr rfl

/-- Data memory stays, or STR or SWP has written one aligned word of the generic half. -/
theorem data (h : Effect s i u) (t : State) :
    (u t).data = t.data ∨
      ((∃ r a o, i = .str r a o) ∨ ∃ d a o, i = .swp d a o) ∧
        ∃ a v, misaligned a = false ∧ deviceHalf a = false ∧ (u t).data = t.data.writeWord a v := by
  cases h with
  | str he hg => exact .inr ⟨.inl ⟨_, _, _, rfl⟩, _, _, he, hg, rfl⟩
  | swp hv =>
    obtain ⟨he, hg, -⟩ := memRead_eq_ok.mp hv
    exact .inr ⟨.inr ⟨_, _, _, rfl⟩, _, _, he, hg, rfl⟩
  | _ => exact .inl rfl

/-- A data operation writes `x[DST]` and the flags of the word written there. -/
theorem dataOp (h : Effect s i u) (hi : isDataOp i = true) (t : State) :
    ∃ d r c, destination i = some d ∧ (u t).reg d = r ∧ (u t).flags = resultFlags r c := by
  cases h with
  | free r _ _ hd => exact ⟨_, r, _, hd, by simp, rfl⟩
  | sub r c _ _ hd => exact ⟨_, r, c, hd, by simp, rfl⟩
  | _ => cases hi

theorem flags (h : Effect s i u) (hi : isDataOp i = false) (t : State) : (u t).flags = t.flags := by
  cases h with
  | free r h' | sub r c h' => cases h'.symm.trans hi
  | _ => rfl

/-- A draw is taken by the data operations other than SUB, as their flag C, and by nothing else (10_state.md R31). -/
theorem draws (h : Effect s i u) (t : State) :
    if isDataOp i = true ∧ isSub i = false then FreshCarry t (u t) else (u t).draws = t.draws := by
  cases h with
  | free r hi hs => rw [if_pos ⟨hi, hs⟩]; exact ⟨rfl, rfl⟩
  | sub r c hi hs => rw [if_neg (by simp [hs])]; rfl
  | _ => rfl

theorem reg_of_not_destination (h : Effect s i u) {r : Reg} (hr : destination i ≠ some r) (t : State) :
    (u t).reg r = t.reg r := by
  have other {d : Reg} (hd : destination i = some d) : r ≠ d := fun e => hr (e ▸ hd)
  cases h with
  | free w _ _ hd => exact State.reg_setReg_other t w (other hd)
  | sub w c _ _ hd => exact State.reg_setReg_other t w (other hd)
  | ldr | swp | jlr => exact State.reg_setReg_other _ _ (other rfl)
  | _ => rfl

/-- What the destination held before is lost. -/
theorem setReg_destination (h : Effect s i u) {r : Reg} (hr : destination i = some r) (t : State) (v : Word) :
    u (t.setReg r v) = u t := by
  have same {d : Reg} (hd : destination i = some d) (w : Word) : (t.setReg r v).setReg d w = t.setReg d w := by
    obtain rfl : r = d := Option.some.inj (hr.symm.trans hd)
    exact State.setReg_setReg_same ..
  cases h with
  | free w _ _ hd =>
    exact congrArg (fun x => (x.setFlags (resultFlags w (Config.freeCarry t.draws))).advance.nextDraw) (same hd w)
  | sub w c _ _ hd => exact congrArg (fun x => (x.setFlags (resultFlags w c)).advance) (same hd w)
  | ldr => exact congrArg State.advance (same rfl _)
  | @swp d a o =>
    exact congrArg (fun x => (x.setData (t.data.writeWord (effectiveAddress s a o) (s.reg d))).advance) (same rfl _)
  | @jlr d a imm5 => exact congrArg (fun x => x.setPc (jumpTarget s a imm5)) (same rfl _)
  | _ => cases hr

/-- A register that is not the destination keeps what it held before. -/
theorem setReg_of_not_destination (h : Effect s i u) {r : Reg} (hr : destination i ≠ some r) (t : State) (v : Word) :
    u (t.setReg r v) = (u t).setReg r v := by
  have other {d : Reg} (hd : destination i = some d) (w : Word) :
      (t.setReg r v).setReg d w = (t.setReg d w).setReg r v :=
    State.setReg_comm t v w fun e => hr (e ▸ hd)
  cases h with
  | free w _ _ hd =>
    exact congrArg (fun x => (x.setFlags (resultFlags w (Config.freeCarry t.draws))).advance.nextDraw) (other hd w)
  | sub w c _ _ hd => exact congrArg (fun x => (x.setFlags (resultFlags w c)).advance) (other hd w)
  | ldr => exact congrArg State.advance (other rfl _)
  | @swp d a o =>
    exact congrArg (fun x => (x.setData (t.data.writeWord (effectiveAddress s a o) (s.reg d))).advance) (other rfl _)
  | @jlr d a imm5 => exact congrArg (fun x => x.setPc (jumpTarget s a imm5)) (other rfl _)
  | _ => rfl

theorem setProg (h : Effect s i u) (t : State) (m : Memory) : u (t.setProg m) = (u t).setProg m := by
  cases h <;> rfl

theorem setData (h : Effect s i u) (hi : reachesData i = false) (t : State) (m : Memory) :
    u (t.setData m) = (u t).setData m := by
  cases h with
  | ldr | str | swp => cases hi
  | _ => rfl

/-- The flags before a data operation are lost; before any other instruction they are kept. -/
theorem setFlags (h : Effect s i u) (t : State) (f : Flags) :
    u (t.setFlags f) = if isDataOp i then u t else (u t).setFlags f := by
  cases h with
  | free _ hi | sub _ _ hi => rw [if_pos hi]; rfl
  | _ => rfl

/-- Every form but BRC, JPR, JLR and HLT moves the pc two on (10_state.md R25). -/
theorem advanced (h : Effect s i u) (t : State) (hi : setsPc i = false) : Advanced t (u t) := by
  cases h with
  | brcTaken | brcNotTaken | jpr | jlr | hlt => cases hi
  | _ => exact t.nextPc_toNat

/-- Only JPR and JLR can make an even pc odd (10_state.md R26). -/
theorem pc_even (h : Effect s i u) (hj : ∀ a imm5, i ≠ .jpr a imm5) (hl : ∀ d a imm5, i ≠ .jlr d a imm5) (t : State)
    (he : t.pc.toNat % 2 = 0) : (u t).pc.toNat % 2 = 0 := by
  have hnext : t.nextPc.toNat % 2 = 0 := by rw [State.nextPc_toNat]; omega
  cases h with
  | brcTaken => exact (add_scaled_parity _ _).trans hnext
  | jpr => exact absurd rfl (hj _ _)
  | jlr => exact absurd rfl (hl _ _ _)
  | hlt => exact he
  | _ => exact hnext

end Effect

/-! ### What an instruction that goes on has done -/

theorem exec_halted {i : Instr} {s t : State} (h : exec i s = .next t) :
    (i = .hlt ∧ t.halted = true) ∨ t.halted = s.halted := by
  obtain ⟨u, hu, rfl⟩ := effect_of_exec h
  exact hu.halted s

/-- An instruction that is no data operation leaves the flags as they were (10_state.md R28). -/
theorem exec_flags {i : Instr} {s t : State} (hi : isDataOp i = false) (h : exec i s = .next t) :
    t.flags = s.flags := by
  obtain ⟨u, hu, rfl⟩ := effect_of_exec h
  exact hu.flags hi s

theorem exec_brc_pc {n z p c : Bool} {imm8 : BitVec 8} {s t : State} (h : exec (.brc n z p c imm8) s = .next t) :
    t.pc = if branchCondition n z p c s.flags then branchTarget s imm8 else s.nextPc :=
  Host.Outcome.next.inj h ▸ rfl

theorem exec_advanced {i : Instr} {s t : State} (hi : setsPc i = false) (h : exec i s = .next t) : Advanced s t := by
  obtain ⟨u, hu, rfl⟩ := effect_of_exec h
  exact hu.advanced s hi

theorem exec_jump_pc {s t : State} {d a : Reg} {imm5 : BitVec 5}
    (h : exec (.jpr a imm5) s = .next t ∨ exec (.jlr d a imm5) s = .next t) : t.pc = jumpTarget s a imm5 := by
  rcases h with h | h
  · exact Host.Outcome.next.inj h ▸ rfl
  · exact Host.Outcome.next.inj h ▸ rfl

/-! ### The step -/

theorem step_of_fetchInstr {s : State} {i : Instr} (hh : s.halted = false) (hf : fetchInstr s = .ok i) :
    step s = exec i s := by
  simp [step, hh, hf]

theorem step_of_odd_pc {s : State} (hh : s.halted = false) (ho : s.pc.toNat % 2 = 1) :
    step s = .fault (.misalignedFetch s.pc) := by
  simp [step, fetchInstr, hh, misaligned_eq_true.mpr ho]

theorem decodeWord_of_decode {b₀ b₁ : Byte} {i : Instr} {rest : List Byte} (h : decode [b₀, b₁] = .ok (i, rest)) :
    decodeWord (wordOfBytes b₀ b₁) = .ok i := by
  cases hw : decodeWord (wordOfBytes b₀ b₁) with
  | error r => simp [decode, hw] at h
  | ok j =>
    obtain ⟨rfl, -⟩ : j = i ∧ [] = rest := by simpa [decode, hw] using h
    rfl

/-! ### The invariant -/

/-- A word write at an aligned address writes the two bytes of one word (20_memory.md R50, R54). -/
theorem wholeWords_writeWord {m : Memory} {a : Word} (v : Word) (ha : misaligned a = false) (hm : WholeWords m) :
    WholeWords (m.writeWord a v) := by
  have he := misaligned_eq_false.mp ha
  intro k
  rw [Memory.read_writeWord, Memory.read_writeWord]
  by_cases hk : 2 * k = a.toNat
  · simp [hk]
  · rw [if_neg (by omega), if_neg hk, if_neg (by omega), if_neg (by omega)]
    exact hm k

/-- An aligned word of the generic half lies in it with both its bytes (20_memory.md R57). -/
theorem below_writeWord {m : Memory} {a : Word} (v : Word) (ha : misaligned a = false) (hg : deviceHalf a = false)
    (hm : Below 0x8000 m) : Below 0x8000 (m.writeWord a v) := by
  have he := misaligned_eq_false.mp ha
  have hlt := deviceHalf_eq_false.mp hg
  intro c hc
  rcases Memory.mem_writeWord hc with h | h | h
  · omega
  · omega
  · exact hm c h

theorem inv_of_same_memory {s t : State} (h : Inv s) (hp : t.prog = s.prog) (hd : t.data = s.data) : Inv t :=
  ⟨hp ▸ h.progForm, hd ▸ h.dataForm, hp ▸ h.progWords, hd ▸ h.dataWords, hp ▸ h.progRange, hd ▸ h.dataRange⟩

theorem inv_setData_writeWord {s : State} {a : Word} (v : Word) (h : Inv s) (ha : misaligned a = false)
    (hg : deviceHalf a = false) : Inv (s.setData (s.data.writeWord a v)) where
  progForm := h.progForm
  dataForm := Memory.writeWord_wf a v h.dataForm
  progWords := h.progWords
  dataWords := wholeWords_writeWord v ha h.dataWords
  progRange := h.progRange
  dataRange := below_writeWord v ha hg h.dataRange

/-- Every instruction keeps the invariant. -/
theorem exec_keeps_inv {i : Instr} {s t : State} (h : Inv s) (he : exec i s = .next t) : Inv t := by
  obtain ⟨u, hu, rfl⟩ := effect_of_exec he
  rcases hu.data s with hd | ⟨-, a, v, ha, hg, hd⟩
  · exact inv_of_same_memory h (hu.prog s) hd
  · exact inv_of_same_memory (inv_setData_writeWord v h ha hg) (hu.prog s) hd

/-! ### The statements -/

/-- Settles O13: a step executes an instruction, and an instruction writes no memory or one aligned word of generic data
memory. -/
theorem stepKeepsInvariant : Obligations.StepKeepsInvariant := by
  intro s t hinv hstep
  rcases step_eq_next.mp hstep with ⟨-, rfl⟩ | ⟨-, i, -, he⟩
  · exact hinv
  · exact exec_keeps_inv hinv he

/-- Settles O10: by what an instruction and a step do to the halted bit. -/
theorem onlyHltHalts : Obligations.OnlyHltHalts := by
  have keeps (i : Instr) (s t : State) (he : exec i s = .next t) (hs : s.halted = true) : t.halted = true := by
    rcases exec_halted he with ⟨-, ht⟩ | ht
    · exact ht
    · exact ht.trans hs
  refine ⟨fun s t hstep hs ht => ?_, fun s t hstep hs => ?_, keeps⟩
  · rcases step_eq_next.mp hstep with ⟨hs', -⟩ | ⟨-, i, hf, he⟩
    · exact nomatch hs.symm.trans hs'
    · rcases exec_halted he with ⟨rfl, -⟩ | hst
      · exact hf
      · exact nomatch ht.symm.trans (hst.trans hs)
  · rcases step_eq_next.mp hstep with ⟨-, rfl⟩ | ⟨-, i, -, he⟩
    · exact hs
    · exact keeps i s t he hs

/-- Settles O25: the flags are `resultFlags` of the word in DST. -/
theorem flagsFollowResult : Obligations.FlagsFollowResult := by
  intro i s t d hi hd he
  obtain ⟨u, hu, rfl⟩ := effect_of_exec he
  obtain ⟨d', r, c, hd', hr, hf⟩ := hu.dataOp hi s
  obtain rfl : d' = d := Option.some.inj (hd'.symm.trans hd)
  rw [hf, hr]
  have hlast : r.msb = r.getLsbD 15 := BitVec.msb_eq_getLsbD_last r
  have hP := resultFlags_P_iff_range r c
  exact ⟨hlast, msb_iff_toInt_neg r, msb_iff_le_toNat r, resultFlags_Z_iff r c, hlast ▸ resultFlags_P_iff r c,
    hP.trans (toInt_pos_iff r).symm, hP⟩

/-- Settles O26: the flags after a data operation are those of one word, and no other instruction touches them. -/
theorem exactlyOneOfNZP : Obligations.ExactlyOneOfNZP := by
  refine ⟨fun i s t hi he => ?_, fun i s t hi he hs => exec_flags hi he ▸ hs⟩
  obtain ⟨u, hu, rfl⟩ := effect_of_exec he
  obtain ⟨d, r, c, -, -, hf⟩ := hu.dataOp hi s
  exact hf ▸ exactlyOne_resultFlags r c

/-- Settles O28: what an instruction other than BRC reads does not include the flags. -/
theorem onlyBranchReadsFlags : Obligations.OnlyBranchReadsFlags := fun _ s f hi =>
  exec_eq_mapNext (.setFlags s f hi) fun _ hu => hu.setFlags s f

/-- Settles O27: no data operation is a BRC, so its outcome is that of O28. -/
theorem onlyDataOperationsWriteFlags : Obligations.OnlyDataOperationsWriteFlags := by
  refine ⟨fun i s f hi => ?_, fun i s t hi he => exec_flags hi he⟩
  have h := onlyBranchReadsFlags i s f (by rintro n z p c imm8 rfl; cases hi)
  simpa only [hi, if_true, mapNext_id] using h

/-- Settles O29: the carry-out by its arithmetic, the draws by the kinds of change. -/
theorem carryFlag : Obligations.CarryFlag := by
  refine ⟨fun s t d a b he => ?_, fun s t d a imm5 he => ?_, fun i s t he => ?_, fun i s t hi he => ?_⟩
  · rw [← Host.Outcome.next.inj he]
    exact subCarry_iff _ _
  · rw [← Host.Outcome.next.inj he]
    exact subCarry_iff _ _
  · obtain ⟨u, hu, rfl⟩ := effect_of_exec he
    exact hu.draws s
  · rw [exec_flags hi he]

/-- Settles O53: BRC, JPR, JLR and HLT by their own forms, the rest by the sequential advance. -/
theorem pcOfEveryInstruction : Obligations.PcOfEveryInstruction := by
  intro i s t he
  cases i with
  | brc n z p c imm8 =>
    have hpc := exec_brc_pc he
    refine ⟨fun h => ?_, fun h => ?_⟩
    · rw [hpc, if_pos (branchCondition_iff.mpr h), branchTarget_toNat]
    · rw [Advanced, hpc, if_neg (mt branchCondition_iff.mp h), State.nextPc_toNat]
  | jpr a imm5 => exact (exec_jump_pc (d := 0) (.inl he)) ▸ add_scaled_toNat _ _
  | jlr d a imm5 => exact (exec_jump_pc (.inr he)) ▸ add_scaled_toNat _ _
  | hlt => exact Host.Outcome.next.inj he ▸ ⟨rfl, rfl⟩
  | _ => exact exec_advanced rfl he

/-- Settles O54: targets and the sequential advance add an even number. -/
theorem pcParity : Obligations.PcParity := by
  refine ⟨fun i s t hj hl he hpc => ?_, fun s t d a imm5 he => ?_⟩
  · obtain ⟨u, hu, rfl⟩ := effect_of_exec he
    exact hu.pc_even hj hl s hpc
  · have hodd : t.pc.toNat % 2 = (s.reg a).toNat % 2 := exec_jump_pc he ▸ add_scaled_parity _ _
    exact ⟨hodd, fun ha hh => step_of_odd_pc hh (hodd.trans ha)⟩

/-- Settles O55: every change commutes with a replaced space, and none but those of STR and SWP writes data memory. -/
theorem harvardSeparation : Obligations.HarvardSeparation := by
  refine ⟨fun i s m => ?_, fun i s m hi => ?_, fun i s t hstr hswp he => ?_, fun _ _ => rfl⟩
  · exact exec_eq_mapNext ⟨fun _ _ => rfl, fun _ => rfl, fun _ _ _ _ _ _ => rfl⟩ fun _ hu => hu.setProg s m
  · exact exec_eq_mapNext ⟨fun _ _ => rfl, fun h => (nomatch hi.symm.trans h), fun _ _ _ _ _ _ => rfl⟩
      fun _ hu => hu.setData hi s m
  · obtain ⟨u, hu, rfl⟩ := effect_of_exec he
    rcases hu.data s with hd | ⟨⟨r, a, o, hi⟩ | ⟨d, a, o, hi⟩, -⟩
    · exact hd
    · exact absurd hi (hstr r a o)
    · exact absurd hi (hswp d a o)

/-- Settles O56: no kind of change writes another register. -/
theorem registersWritten : Obligations.RegistersWritten := by
  intro i s t he r hr
  obtain ⟨u, hu, rfl⟩ := effect_of_exec he
  exact hu.reg_of_not_destination hr s

/-- Settles O57: every change overwrites the register or commutes with the write to it, as it is the destination or
not. -/
theorem registersRead : Obligations.RegistersRead := by
  intro i s r v hr
  refine exec_eq_mapNext (.setReg s v hr) fun u hu => ?_
  by_cases hd : destination i = some r
  · rw [if_pos hd, hu.setReg_destination hd]
  · rw [if_neg hd, hu.setReg_of_not_destination hd]

/-- Settles O7: the two bytes are the word that the fetch decodes. -/
theorem stepRunsDecodedInstruction : Obligations.StepRunsDecodedInstruction := by
  intro s b₀ b₁ i hh he h₀ h₁ hdec
  have hword : s.prog.readWord s.pc = some (wordOfBytes b₀ b₁) := by simp [Memory.readWord, h₀, h₁]
  exact step_of_fetchInstr hh
    (fetchInstr_eq_ok.mpr ⟨misaligned_eq_false.mpr he, _, hword, decodeWord_of_decode hdec⟩)

/-- Settles O9: the halted case of what a step can do. -/
theorem haltedProcessorStays : Obligations.HaltedProcessorStays := fun _ h =>
  step_eq_next.mpr (.inl ⟨h, rfl⟩)

/-- Settles O11: every value is read off `State.reset`. -/
theorem resetState : Obligations.ResetState :=
  ⟨rfl, rfl, fun _ => Vector.getElem_replicate _, rfl, rfl, fun _ => rfl, fun _ => rfl⟩

/-- Settles O38: both instructions pass on the fault of their read. -/
theorem unwrittenWordFaults : Obligations.UnwrittenWordFaults := by
  intro s r sr1 ofst6 he hg hw
  have hread := memRead_unwritten he hg hw
  exact ⟨execLdr_of_memRead_error hread, execSwp_of_memRead_error hread⟩

end Sys2Proof.Machine
end

section
/-! PROOFS of the statements of 20_memory.md. `MemRead` and `MemWrite` are settled first, their checks in order and a
read after a write; LDR, STR and SWP then answer as the accesses they make. -/

namespace Sys2Proof.Machine

open Sys2Proof.Safety

/-! ### MemRead and MemWrite at an address they refuse (20_memory.md R52, R53) -/

theorem memRead_misaligned (s : State) {a : Word} (ho : a.toNat % 2 = 1) :
    memRead s a = .error (.misalignedData a) := by
  simp [memRead, misaligned_eq_true.mpr ho]

theorem memWrite_misaligned (s : State) {a : Word} (ho : a.toNat % 2 = 1) (v : Word) :
    memWrite s a v = .error (.misalignedData a) := by
  simp [memWrite, misaligned_eq_true.mpr ho]

theorem memRead_deviceHalf (s : State) {a : Word} (he : a.toNat % 2 = 0) (hd : 0x8000 ≤ a.toNat) :
    memRead s a = .error (.unmappedDevice a .read) := by
  simp [memRead, misaligned_eq_false.mpr he, deviceHalf_eq_true.mpr hd]

theorem memWrite_deviceHalf (s : State) {a : Word} (he : a.toNat % 2 = 0) (hd : 0x8000 ≤ a.toNat) (v : Word) :
    memWrite s a v = .error (.unmappedDevice a .write) := by
  simp [memWrite, misaligned_eq_false.mpr he, deviceHalf_eq_true.mpr hd]

/-! ### MemWrite that completes, and MemRead after it -/

theorem sameDataBut_writeWord (s : State) (a v : Word) : SameDataBut a s (s.setData (s.data.writeWord a v)) := by
  intro b hlower hupper
  rw [State.setData_data, Memory.read_writeWord, if_neg hupper, if_neg hlower]

/-- Of data memory a read sees the word at its address, and at an odd address nothing. -/
theorem memRead_congr_readWord {s s' : State} {a : Word}
    (h : misaligned a = false → s'.data.readWord a = s.data.readWord a) : memRead s' a = memRead s a := by
  cases hm : misaligned a with
  | true => simp [memRead, hm]
  | false => simp only [memRead, h hm]

theorem memRead_of_memWrite_same {s t : State} {a v : Word} (hw : memWrite s a v = .ok t) : memRead t a = .ok v := by
  obtain ⟨he, hg, rfl⟩ := memWrite_eq_ok.mp hw
  exact memRead_eq_ok.mpr ⟨he, hg, Memory.readWord_writeWord_same s.data a v⟩

theorem memRead_of_memWrite_other {s t : State} {a b v : Word} (hw : memWrite s a v = .ok t) (hb : b ≠ a) :
    memRead t b = memRead s b := by
  obtain ⟨he, -, rfl⟩ := memWrite_eq_ok.mp hw
  exact memRead_congr_readWord fun heb => Memory.readWord_writeWord_other s.data v he heb hb

/-- The pc is no part of what a data read sees. -/
@[simp] theorem memRead_advance (s : State) (a : Word) : memRead s.advance a = memRead s a := rfl

/-! ### LDR, STR and SWP at one effective address, when its accesses stop -/

theorem memory_instrs_fault {s : State} {r sr1 : Reg} {ofst6 : BitVec 6} {f g : Fault}
    (hread : memRead s (effectiveAddress s sr1 ofst6) = .error f)
    (hwrite : memWrite s (effectiveAddress s sr1 ofst6) (s.reg r) = .error g) :
    exec (.ldr r sr1 ofst6) s = .fault f ∧ exec (.str r sr1 ofst6) s = .fault g ∧
      exec (.swp r sr1 ofst6) s = .fault f :=
  ⟨execLdr_of_memRead_error hread, execStr_of_memWrite_error hwrite, execSwp_of_memRead_error hread⟩

/-! ### The program space -/

theorem exec_prog {i : Instr} {s t : State} (h : exec i s = .next t) : t.prog = s.prog := by
  obtain ⟨u, hu, rfl⟩ := effect_of_exec h
  exact hu.prog s

/-! ### The statements -/

/-- Settles O14: no kind of change an instruction makes writes the program space, and a step executes at most one
instruction. -/
theorem stepKeepsProgram : Obligations.StepKeepsProgram := by
  refine ⟨fun s t hstep => ?_, fun _ _ _ => exec_prog⟩
  rcases step_eq_next.mp hstep with ⟨-, rfl⟩ | ⟨-, i, -, he⟩
  · rfl
  · exact exec_prog he

/-- Settles O36: a scaled offset is even, and alignment is the first check of every access. -/
theorem misalignedDataFaults : Obligations.MisalignedDataFaults := by
  intro s r sr1 ofst6
  have hparity : (effectiveAddress s sr1 ofst6).toNat % 2 = (s.reg sr1).toNat % 2 := add_scaled_parity _ _
  refine ⟨hparity, fun hbase => ?_⟩
  have hodd := hparity.trans hbase
  exact memory_instrs_fault (memRead_misaligned s hodd) (memWrite_misaligned s hodd _)

/-- Settles O41: the checks one by one, then what a write that completes has done to each word. -/
theorem memReadCases : Obligations.MemReadCases := by
  refine ⟨fun s a => ⟨memRead_misaligned s, memRead_deviceHalf s, memRead_unwritten, fun v he hg hv => ?_⟩,
    fun s t a v hw => ⟨memRead_of_memWrite_same hw, fun b => memRead_of_memWrite_other hw⟩⟩
  exact memRead_eq_ok.mpr ⟨misaligned_eq_false.mpr he, deviceHalf_eq_false.mpr hg, hv⟩

/-- Settles O42: the checks one by one, then the word written in place of data memory. -/
theorem memWriteCases : Obligations.MemWriteCases := by
  intro s a v
  refine ⟨fun ho => memWrite_misaligned s ho v, fun he hd => memWrite_deviceHalf s he hd v, fun he hg => ?_⟩
  refine ⟨_, ?_, Memory.readWord_writeWord_same s.data a v, sameDataBut_writeWord s a v, rfl⟩
  exact memWrite_eq_ok.mpr ⟨misaligned_eq_false.mpr he, deviceHalf_eq_false.mpr hg, rfl⟩

/-- Settles O43: STR is its write and LDR its read, both with the pc advanced, which no read sees. -/
theorem plainStorage : Obligations.PlainStorage := by
  refine ⟨fun s t src a o dst a' o' hstr haddr => ?_, fun s t src a o b hstr hb => ?_, fun s t dst a o hldr => ?_⟩
  · obtain ⟨u, hw, rfl⟩ := execStr_eq_next.mp hstr
    have hread : memRead u.advance (effectiveAddress u.advance a' o') = .ok (s.reg src) :=
      haddr ▸ (memRead_advance u _).trans (memRead_of_memWrite_same hw)
    exact ⟨_, execLdr_eq_next.mpr ⟨_, hread, rfl⟩, State.reg_setReg_same ..⟩
  · obtain ⟨u, hw, rfl⟩ := execStr_eq_next.mp hstr
    exact (memRead_advance u b).trans (memRead_of_memWrite_other hw hb)
  · obtain ⟨v, -, rfl⟩ := execLdr_eq_next.mp hldr
    rfl

/-- Settles O37: the device half is the second check of every access; SWP stops at its read. -/
theorem deviceHalfFaults : Obligations.DeviceHalfFaults := by
  intro s r sr1 ofst6 he hd
  exact memory_instrs_fault (memRead_deviceHalf s he hd) (memWrite_deviceHalf s he hd _)

end Sys2Proof.Machine
end

section
/-! PROOFS of the statements of 30_encoding.md. Three facts carry them: what each layout of fields says about a word
(an instruction's word is its fields side by side), what the decoder answers on an instruction's word, and that a form
the decoder answers has a row that selects the word. -/

namespace Sys2Proof

/-! ### Fields side by side (30_encoding.md R82) -/

/-- Two strings side by side are a stretch of bits exactly when the one is its upper part and the other its lower. -/
theorem append_eq_extractLsb'_iff {k m n s : Nat} {w : BitVec k} {x : BitVec m} {y : BitVec n} :
    x ++ y = w.extractLsb' s (m + n) ↔ x = w.extractLsb' (s + n) m ∧ y = w.extractLsb' s n := by
  rw [← BitVec.extractLsb'_append_extractLsb'_eq_extractLsb' rfl]
  constructor
  · intro h
    have hi := congrArg (BitVec.extractLsb' n m) h
    have lo := congrArg (BitVec.extractLsb' 0 n) h
    exact ⟨by simpa only [BitVec.extractLsb'_append_eq_left] using hi,
      by simpa only [BitVec.extractLsb'_append_eq_right] using lo⟩
  · rintro ⟨rfl, rfl⟩
    rfl

theorem eq_iff_eq_extractLsb' {k : Nat} {x w : BitVec k} : x = w ↔ x = w.extractLsb' 0 k := by
  rw [BitVec.extractLsb'_eq_self]

theorem eq_extractLsb'_comm {k m s : Nat} {w : BitVec k} {x : BitVec m} :
    x = w.extractLsb' s m ↔ w.extractLsb' s m = x := eq_comm

theorem extractLsb'_eq_ofBool_iff {w : Word} {k : Nat} {b : Bool} :
    w.extractLsb' k 1 = BitVec.ofBool b ↔ bitField w k = b := by
  rw [bitField, BitVec.getLsbD_eq_extractLsb']
  generalize w.extractLsb' k 1 = x
  revert x b
  decide

/-- Three bits are zero when each of them is. -/
theorem extractLsb'_eq_zero_iff {w : Word} {k : Nat} :
    w.extractLsb' k 3 = 0#3 ↔ bitField w (k + 2) = false ∧ bitField w (k + 1) = false ∧ bitField w k = false := by
  rw [← eq_extractLsb'_comm, show 0#3 = BitVec.ofBool false ++ BitVec.ofBool false ++ BitVec.ofBool false from rfl]
  iterate 2 rw [append_eq_extractLsb'_iff]
  simp only [eq_extractLsb'_comm, extractLsb'_eq_ofBool_iff, and_assoc]

theorem dstField_eq_zero_iff {w : Word} :
    dstField w = 0#3 ↔ bitField w 11 = false ∧ bitField w 10 = false ∧ bitField w 9 = false :=
  extractLsb'_eq_zero_iff

/-! ### The layouts of 30_encoding.md R81 -/

section Layouts

variable {w : Word} {op : BitVec 4} {d a b : Reg} {f : Bool}

/-- `op-DST-SR1-000-SR2` -/
theorem regWord_eq_iff :
    op ++ d ++ a ++ 0#3 ++ b = w ↔
      opField w = op ∧ dstField w = d ∧ sr1Field w = a ∧
        (bitField w 5 = false ∧ bitField w 4 = false ∧ bitField w 3 = false) ∧ sr2Field w = b := by
  rw [eq_iff_eq_extractLsb']
  iterate 4 rw [append_eq_extractLsb'_iff]
  simp only [eq_extractLsb'_comm, extractLsb'_eq_zero_iff, and_assoc]
  rfl

/-- `op-DST-SR1-f-5bImm` -/
theorem imm5Word_eq_iff {i : BitVec 5} :
    op ++ d ++ a ++ BitVec.ofBool f ++ i = w ↔
      opField w = op ∧ dstField w = d ∧ sr1Field w = a ∧ bitField w 5 = f ∧ imm5Field w = i := by
  rw [eq_iff_eq_extractLsb']
  iterate 4 rw [append_eq_extractLsb'_iff]
  simp only [eq_extractLsb'_comm, extractLsb'_eq_ofBool_iff, and_assoc]
  rfl

/-- `op-DST-SR1-10-4bIm` -/
theorem imm4Word_eq_iff {k : BitVec 4} :
    op ++ d ++ a ++ 0b10#2 ++ k = w ↔
      opField w = op ∧ dstField w = d ∧ sr1Field w = a ∧ (bitField w 5 = true ∧ bitField w 4 = false) ∧
        imm4Field w = k := by
  rw [eq_iff_eq_extractLsb', show 0b10#2 = BitVec.ofBool true ++ BitVec.ofBool false from rfl]
  iterate 5 rw [append_eq_extractLsb'_iff]
  simp only [eq_extractLsb'_comm, extractLsb'_eq_ofBool_iff, and_assoc]
  rfl

/-- `op-DST-SR1-0-a-0-SR2` -/
theorem flagRegWord_eq_iff :
    op ++ d ++ a ++ 0b0#1 ++ BitVec.ofBool f ++ 0b0#1 ++ b = w ↔
      opField w = op ∧ dstField w = d ∧ sr1Field w = a ∧
        (bitField w 5 = false ∧ bitField w 4 = f ∧ bitField w 3 = false) ∧ sr2Field w = b := by
  rw [eq_iff_eq_extractLsb', show 0b0#1 = BitVec.ofBool false from rfl]
  iterate 6 rw [append_eq_extractLsb'_iff]
  simp only [eq_extractLsb'_comm, extractLsb'_eq_ofBool_iff, and_assoc]
  rfl

/-- `op-DST-SR1-1-a-4bIm` -/
theorem flagImm4Word_eq_iff {k : BitVec 4} :
    op ++ d ++ a ++ 0b1#1 ++ BitVec.ofBool f ++ k = w ↔
      opField w = op ∧ dstField w = d ∧ sr1Field w = a ∧ (bitField w 5 = true ∧ bitField w 4 = f) ∧
        imm4Field w = k := by
  rw [eq_iff_eq_extractLsb', show 0b1#1 = BitVec.ofBool true from rfl]
  iterate 5 rw [append_eq_extractLsb'_iff]
  simp only [eq_extractLsb'_comm, extractLsb'_eq_ofBool_iff, and_assoc]
  rfl

/-- `op-DST-f-8bImmVal` -/
theorem imm8Word_eq_iff {i : BitVec 8} :
    op ++ d ++ BitVec.ofBool f ++ i = w ↔
      opField w = op ∧ dstField w = d ∧ bitField w 8 = f ∧ imm8Field w = i := by
  rw [eq_iff_eq_extractLsb']
  iterate 3 rw [append_eq_extractLsb'_iff]
  simp only [eq_extractLsb'_comm, extractLsb'_eq_ofBool_iff, and_assoc]
  rfl

/-- `op-DST-SR1-6bOfst` -/
theorem ofst6Word_eq_iff {o : BitVec 6} :
    op ++ d ++ a ++ o = w ↔ opField w = op ∧ dstField w = d ∧ sr1Field w = a ∧ ofst6Field w = o := by
  rw [eq_iff_eq_extractLsb']
  iterate 3 rw [append_eq_extractLsb'_iff]
  simp only [eq_extractLsb'_comm, and_assoc]
  rfl

/-- `op-nzpc-8bImmVal` -/
theorem branchWord_eq_iff {n z p c : Bool} {i : BitVec 8} :
    op ++ BitVec.ofBool n ++ BitVec.ofBool z ++ BitVec.ofBool p ++ BitVec.ofBool c ++ i = w ↔
      opField w = op ∧ bitField w 11 = n ∧ bitField w 10 = z ∧ bitField w 9 = p ∧ bitField w 8 = c ∧
        imm8Field w = i := by
  rw [eq_iff_eq_extractLsb']
  iterate 5 rw [append_eq_extractLsb'_iff]
  simp only [eq_extractLsb'_comm, extractLsb'_eq_ofBool_iff, and_assoc]
  rfl

end Layouts

/-! ### Decoding an instruction's word -/

theorem decodeThreeOperand_regWord {w : Word} {op : BitVec 4} {d a b : Reg} {reg imm}
    (h : op ++ d ++ a ++ 0#3 ++ b = w) : decodeThreeOperand w reg imm = .ok (reg d a b) := by
  simp [decodeThreeOperand, regWord_eq_iff.mp h]

theorem decodeThreeOperand_imm5Word {w : Word} {op : BitVec 4} {d a : Reg} {i : BitVec 5} {reg imm}
    (h : op ++ d ++ a ++ 0b1#1 ++ i = w) : decodeThreeOperand w reg imm = .ok (imm d a i) := by
  simp [decodeThreeOperand, (imm5Word_eq_iff (f := true)).mp h]

theorem decodeWord_of_encodeWord_eq {i : Instr} {w : Word} (h : encodeWord i = w) : decodeWord w = .ok i := by
  cases i with
  | andReg | orrReg | xorReg | addReg | subReg =>
    simp [decodeWord, regWord_eq_iff.mp h, decodeThreeOperand_regWord h]
  | andImm | orrImm | xorImm | addImm | subImm =>
    simp [decodeWord, (imm5Word_eq_iff (f := true)).mp h, decodeThreeOperand_imm5Word h]
  | shlReg => simp [decodeWord, decodeShl, regWord_eq_iff.mp h]
  | shlImm => simp [decodeWord, decodeShl, imm4Word_eq_iff.mp h]
  | shrReg => simp [decodeWord, decodeShr, flagRegWord_eq_iff.mp h]
  | shrImm => simp [decodeWord, decodeShr, flagImm4Word_eq_iff.mp h]
  | lbi => simp [decodeWord, (imm8Word_eq_iff (f := false)).mp h]
  | lbiShift => simp [decodeWord, (imm8Word_eq_iff (f := true)).mp h]
  | ldr | str | swp => simp [decodeWord, ofst6Word_eq_iff.mp h]
  | brc => simp [decodeWord, branchWord_eq_iff.mp h]
  | jpr =>
    obtain ⟨hop, hd, ha, h5, hi⟩ := (imm5Word_eq_iff (f := false)).mp h
    have hrti : w ≠ 0x6020#16 := by rintro rfl; exact absurd h5 (by decide)
    simp [decodeWord, decodeJpr, hrti, hop, hd, ha, h5, hi]
  | jlr => simp [decodeWord, decodeJlr, (imm5Word_eq_iff (f := false)).mp h]
  | rti | nop | hlt => subst h; decide

theorem decodeWord_encodeWord (i : Instr) : decodeWord (encodeWord i) = .ok i :=
  decodeWord_of_encodeWord_eq rfl

/-! ### Rows of the opcode table (30_encoding.md R85) -/

/-- The row fixes the opcode at `op`, the listed bits below it at their values, and nothing else. -/
abbrev Row.Fixes (r : Row) (op : BitVec 4) (low : List (Nat × Bool)) : Prop :=
  opField r.mask = 0xF#4 ∧ opField r.pattern = op ∧
    (∀ kb ∈ low, bitField r.mask kb.1 = true ∧ bitField r.pattern kb.1 = kb.2) ∧
    ∀ k < 12, if bitField r.mask k then k ∈ low.map Prod.fst else bitField r.pattern k = false

theorem bitField_of_opField_eq {w : Word} {op : BitVec 4} (h : opField w = op) {k : Nat} (hk : k < 4) :
    bitField w (12 + k) = op.getLsbD k := by
  rw [← h, opField_getLsbD, decide_eq_true hk, Bool.true_and, bitField]

/-- A row selects the words that have what it fixes. -/
theorem Row.selects_iff_of_fixes {mn : String} {p m w : Word} {op : BitVec 4} {low : List (Nat × Bool)}
    (hr : Row.Fixes ⟨mn, p, m⟩ op low) :
    Row.selects ⟨mn, p, m⟩ w = true ↔ opField w = op ∧ ∀ kb ∈ low, bitField w kb.1 = kb.2 := by
  obtain ⟨hm, hp, hlow, hrest⟩ := hr
  constructor
  · intro h
    obtain rfl : w &&& m = p := eq_of_beq h
    refine ⟨?_, fun kb hkb => ?_⟩
    · rw [← hp]
      simp only [opField] at hm ⊢
      rw [BitVec.extractLsb'_and, hm]
      exact BitVec.and_allOnes.symm
    · obtain ⟨hmk, hpk⟩ := hlow kb hkb
      simp only [bitField, BitVec.getLsbD_and] at hmk hpk ⊢
      rw [← hpk, hmk, Bool.and_true]
  · rintro ⟨hop, hbits⟩
    refine (Row.selects_iff _ w).mpr fun k hk => ?_
    change (bitField w k && bitField m k) = bitField p k
    by_cases hk12 : k < 12
    · have hk' := hrest k hk12
      split_ifs at hk' with hmk
      · obtain ⟨kb, hkb, rfl⟩ := List.mem_map.mp hk'
        rw [hmk, hbits kb hkb, (hlow kb hkb).2, Bool.and_true]
      · rw [hk', Bool.eq_false_of_not_eq_true hmk, Bool.and_false]
    · obtain ⟨j, rfl⟩ : ∃ j, k = 12 + j := ⟨k - 12, by omega⟩
      have hj : j < 4 := by omega
      have hones : (0xF#4).getLsbD j = true := by interval_cases j <;> rfl
      rw [bitField_of_opField_eq hop hj, bitField_of_opField_eq hm hj, bitField_of_opField_eq hp hj, hones,
        Bool.and_true]

/-! ### What the decoder answers has a row that selects the word -/

/-- An answer of a decoder on a word agrees with the opcode table: the row of the form selects the word, or the word is
rejected as reserved. -/
def FollowsTable (w : Word) : Except Reject Instr → Prop
  | .ok i => i.row.selects w = true
  | .error r => r = .reserved w

/-- Answering a form follows the table when the word has the opcode and the low bits that the form's row fixes. -/
theorem followsTable_ok {i : Instr} {mn : String} {p m w : Word} {n : Nat} (low : List (Nat × Bool))
    (hi : i.row = ⟨mn, p, m⟩) (hr : Row.Fixes ⟨mn, p, m⟩ (BitVec.ofNat 4 n) low) (hop : (opField w).toNat = n)
    (hlow : ∀ kb ∈ low, bitField w kb.1 = kb.2) : FollowsTable w (.ok i) := by
  subst hop
  rw [BitVec.ofNat_toNat, BitVec.setWidth_eq] at hr
  rw [FollowsTable, hi]
  exact (Row.selects_iff_of_fixes hr).mpr ⟨rfl, hlow⟩

theorem decodeThreeOperand_followsTable {w p q : Word} {n : Nat} {mn : String} {reg imm} (hop : (opField w).toNat = n)
    (hreg : ∀ d a b, (reg d a b).row = ⟨mn, p, 0xF038#16⟩) (himm : ∀ d a i, (imm d a i).row = ⟨mn, q, 0xF020#16⟩)
    (hp : Row.Fixes ⟨mn, p, 0xF038#16⟩ (BitVec.ofNat 4 n) [(5, false), (4, false), (3, false)])
    (hq : Row.Fixes ⟨mn, q, 0xF020#16⟩ (BitVec.ofNat 4 n) [(5, true)]) :
    FollowsTable w (decodeThreeOperand w reg imm) := by
  unfold decodeThreeOperand
  split_ifs with h5 h43
  · exact followsTable_ok _ (himm ..) hq hop (by simp [h5])
  · rfl
  · exact followsTable_ok _ (hreg ..) hp hop (by simp_all)

theorem decodeShl_followsTable {w : Word} (hop : (opField w).toNat = 0xC) : FollowsTable w (decodeShl w) := by
  unfold decodeShl
  split_ifs with h5 h4 h43
  · rfl
  · exact followsTable_ok [(5, true), (4, false)] rfl (by decide) hop (by simp_all)
  · rfl
  · exact followsTable_ok [(5, false), (4, false), (3, false)] rfl (by decide) hop (by simp_all)

theorem decodeShr_followsTable {w : Word} (hop : (opField w).toNat = 0xD) : FollowsTable w (decodeShr w) := by
  unfold decodeShr
  split_ifs with h5 h3
  · exact followsTable_ok [(5, true)] rfl (by decide) hop (by simp_all)
  · rfl
  · exact followsTable_ok [(5, false), (3, false)] rfl (by decide) hop (by simp_all)

theorem decodeJpr_followsTable {w : Word} (hop : (opField w).toNat = 6) : FollowsTable w (decodeJpr w) := by
  unfold decodeJpr
  split_ifs with hrti hdst h5
  · subst hrti; exact (by decide : Instr.rti.row.selects 0x6020#16 = true)
  · rfl
  · refine followsTable_ok [(11, false), (10, false), (9, false), (5, false)] rfl (by decide) hop ?_
    simp_all [dstField_eq_zero_iff]
  · rfl

theorem decodeJlr_followsTable {w : Word} (hop : (opField w).toNat = 7) : FollowsTable w (decodeJlr w) := by
  unfold decodeJlr
  split_ifs with h5
  · rfl
  · exact followsTable_ok [(5, false)] rfl (by decide) hop (by simp_all)

theorem decodeWord_followsTable (w : Word) : FollowsTable w (decodeWord w) := by
  unfold decodeWord
  split
  case h_1 =>
    split_ifs with hnop
    · subst hnop; exact (by decide : Instr.nop.row.selects 0x0000#16 = true)
    · rfl
  case h_4 =>
    split_ifs with hhlt
    · subst hhlt; exact (by decide : Instr.hlt.row.selects 0x3000#16 = true)
    · rfl
  case h_2 hop => exact followsTable_ok [] rfl (by decide) hop (by simp)
  case h_3 hop => exact followsTable_ok [] rfl (by decide) hop (by simp)
  case h_5 hop => exact followsTable_ok [] rfl (by decide) hop (by simp)
  case h_6 hop => exact followsTable_ok [] rfl (by decide) hop (by simp)
  case h_7 hop => exact decodeJpr_followsTable hop
  case h_8 hop => exact decodeJlr_followsTable hop
  case h_11 hop =>
    split_ifs with h8
    · exact followsTable_ok [(8, true)] rfl (by decide) hop (by simp [h8])
    · exact followsTable_ok [(8, false)] rfl (by decide) hop (by simp [h8])
  case h_13 hop => exact decodeShl_followsTable hop
  case h_14 hop => exact decodeShr_followsTable hop
  case h_9 hop | h_10 hop | h_12 hop | h_15 hop | h_16 hop =>
    exact decodeThreeOperand_followsTable hop (fun _ _ _ => rfl) (fun _ _ _ => rfl) (by decide) (by decide)
  case h_17 => rfl

/-! ### A word that a row selects is an instruction's word -/

section Selected

variable {mn : String} {p w : Word} {op : BitVec 4} {f : Bool}

theorem regWord_of_selects (h : Row.selects ⟨mn, p, 0xF038#16⟩ w = true)
    (hr : Row.Fixes ⟨mn, p, 0xF038#16⟩ op [(5, false), (4, false), (3, false)]) :
    op ++ dstField w ++ sr1Field w ++ 0#3 ++ sr2Field w = w := by
  obtain ⟨hop, hlow⟩ := (Row.selects_iff_of_fixes hr).mp h
  exact regWord_eq_iff.mpr ⟨hop, rfl, rfl, by simpa using hlow, rfl⟩

theorem imm5Word_of_selects (f : Bool) (h : Row.selects ⟨mn, p, 0xF020#16⟩ w = true)
    (hr : Row.Fixes ⟨mn, p, 0xF020#16⟩ op [(5, f)]) :
    op ++ dstField w ++ sr1Field w ++ BitVec.ofBool f ++ imm5Field w = w := by
  obtain ⟨hop, hlow⟩ := (Row.selects_iff_of_fixes hr).mp h
  exact imm5Word_eq_iff.mpr ⟨hop, rfl, rfl, by simpa using hlow, rfl⟩

theorem imm8Word_of_selects (f : Bool) (h : Row.selects ⟨mn, p, 0xF100#16⟩ w = true)
    (hr : Row.Fixes ⟨mn, p, 0xF100#16⟩ op [(8, f)]) : op ++ dstField w ++ BitVec.ofBool f ++ imm8Field w = w := by
  obtain ⟨hop, hlow⟩ := (Row.selects_iff_of_fixes hr).mp h
  exact imm8Word_eq_iff.mpr ⟨hop, rfl, by simpa using hlow, rfl⟩

theorem ofst6Word_of_selects (h : Row.selects ⟨mn, p, 0xF000#16⟩ w = true)
    (hr : Row.Fixes ⟨mn, p, 0xF000#16⟩ op []) : op ++ dstField w ++ sr1Field w ++ ofst6Field w = w :=
  ofst6Word_eq_iff.mpr ⟨((Row.selects_iff_of_fixes hr).mp h).1, rfl, rfl, rfl⟩

theorem eq_of_selects_of_full_mask (h : Row.selects ⟨mn, p, 0xFFFF#16⟩ w = true) : p = w :=
  (eq_of_beq h).symm.trans BitVec.and_allOnes

end Selected

theorem exists_encodeWord_of_selects {i : Instr} {w : Word} (h : i.row.selects w = true) : ∃ j, encodeWord j = w := by
  cases i with
  | andReg => exact ⟨.andReg _ _ _, regWord_of_selects h (by decide)⟩
  | orrReg => exact ⟨.orrReg _ _ _, regWord_of_selects h (by decide)⟩
  | xorReg => exact ⟨.xorReg _ _ _, regWord_of_selects h (by decide)⟩
  | shlReg => exact ⟨.shlReg _ _ _, regWord_of_selects h (by decide)⟩
  | addReg => exact ⟨.addReg _ _ _, regWord_of_selects h (by decide)⟩
  | subReg => exact ⟨.subReg _ _ _, regWord_of_selects h (by decide)⟩
  | andImm => exact ⟨.andImm _ _ _, imm5Word_of_selects true h (by decide)⟩
  | orrImm => exact ⟨.orrImm _ _ _, imm5Word_of_selects true h (by decide)⟩
  | xorImm => exact ⟨.xorImm _ _ _, imm5Word_of_selects true h (by decide)⟩
  | addImm => exact ⟨.addImm _ _ _, imm5Word_of_selects true h (by decide)⟩
  | subImm => exact ⟨.subImm _ _ _, imm5Word_of_selects true h (by decide)⟩
  | jlr => exact ⟨.jlr _ _ _, imm5Word_of_selects false h (by decide)⟩
  | lbi => exact ⟨.lbi _ _, imm8Word_of_selects false h (by decide)⟩
  | lbiShift => exact ⟨.lbiShift _ _, imm8Word_of_selects true h (by decide)⟩
  | ldr => exact ⟨.ldr _ _ _, ofst6Word_of_selects h (by decide)⟩
  | str => exact ⟨.str _ _ _, ofst6Word_of_selects h (by decide)⟩
  | swp => exact ⟨.swp _ _ _, ofst6Word_of_selects h (by decide)⟩
  | nop => exact ⟨.nop, eq_of_selects_of_full_mask h⟩
  | hlt => exact ⟨.hlt, eq_of_selects_of_full_mask h⟩
  | rti => exact ⟨.rti, eq_of_selects_of_full_mask h⟩
  | shlImm =>
    obtain ⟨hop, hlow⟩ := (Row.selects_iff_of_fixes (op := 0xC#4) (low := [(5, true), (4, false)]) (by decide)).mp h
    exact ⟨.shlImm _ _ _, imm4Word_eq_iff.mpr ⟨hop, rfl, rfl, by simpa using hlow, rfl⟩⟩
  | shrReg =>
    obtain ⟨hop, hlow⟩ := (Row.selects_iff_of_fixes (op := 0xD#4) (low := [(5, false), (3, false)]) (by decide)).mp h
    exact ⟨.shrReg _ _ (bitField w 4) _, flagRegWord_eq_iff.mpr ⟨hop, rfl, rfl, by simpa using hlow, rfl⟩⟩
  | shrImm =>
    obtain ⟨hop, hlow⟩ := (Row.selects_iff_of_fixes (op := 0xD#4) (low := [(5, true)]) (by decide)).mp h
    exact ⟨.shrImm _ _ (bitField w 4) _, flagImm4Word_eq_iff.mpr ⟨hop, rfl, rfl, by simpa using hlow, rfl⟩⟩
  | brc =>
    obtain ⟨hop, -⟩ := (Row.selects_iff_of_fixes (op := 0x2#4) (low := []) (by decide)).mp h
    exact ⟨.brc _ _ _ _ _, branchWord_eq_iff.mpr ⟨hop, rfl, rfl, rfl, rfl, rfl⟩⟩
  | jpr =>
    obtain ⟨hop, hlow⟩ := (Row.selects_iff_of_fixes (op := 0x6#4)
      (low := [(5, false), (11, false), (10, false), (9, false)]) (by decide)).mp h
    obtain ⟨h5, hdst⟩ : bitField w 5 = false ∧ dstField w = 0#3 := by simpa [dstField_eq_zero_iff] using hlow
    exact ⟨.jpr _ _, (imm5Word_eq_iff (f := false)).mpr ⟨hop, hdst, rfl, h5, rfl⟩⟩

/-! ### The whole table -/

theorem Instr.row_mem_opcodeRows (i : Instr) : i.row ∈ opcodeRows := by
  cases i <;> simp [opcodeRows, Instr.row]

theorem wellFormedWord_iff {w : Word} : wellFormedWord w = true ↔ ∃ i : Instr, i.row.selects w = true := by
  rw [wellFormedWord, List.any_eq_true]
  constructor
  · rintro ⟨r, hmem, hsel⟩
    obtain ⟨i, -, rfl⟩ := List.mem_map.mp hmem
    exact ⟨i, hsel⟩
  · rintro ⟨i, hsel⟩
    exact ⟨_, i.row_mem_opcodeRows, hsel⟩

/-- Two rows that select one word agree in their patterns wherever both masks have a bit. -/
theorem Row.pattern_agree {r₁ r₂ : Row} {w : Word} (h₁ : r₁.selects w = true) (h₂ : r₂.selects w = true) :
    r₁.pattern &&& r₂.mask = r₂.pattern &&& r₁.mask := by
  rw [← eq_of_beq h₁, ← eq_of_beq h₂, BitVec.and_assoc, BitVec.and_assoc, BitVec.and_comm r₁.mask]

theorem opcodeRows_eq_of_agree : ∀ r₁ ∈ opcodeRows, ∀ r₂ ∈ opcodeRows,
    r₁.pattern &&& r₂.mask = r₂.pattern &&& r₁.mask → r₁ = r₂ := by decide

theorem selects_of_decodeWord {i : Instr} {w : Word} (h : decodeWord w = .ok i) : i.row.selects w = true := by
  have hfollows := decodeWord_followsTable w
  rw [h] at hfollows
  exact hfollows

theorem reject_of_decodeWord {w : Word} {r : Reject} (h : decodeWord w = .error r) : r = .reserved w := by
  have hfollows := decodeWord_followsTable w
  rw [h] at hfollows
  exact hfollows

/-! ### Scaled offsets -/

theorem two_mul_toInt_bounds {n : Nat} (f : BitVec n) (hn : n ≤ 8) : -256 ≤ 2 * f.toInt ∧ 2 * f.toInt < 256 := by
  have hpow : 2 ^ n ≤ 2 ^ 8 := Nat.pow_le_pow_right (by decide) hn
  have hlo := BitVec.le_two_mul_toInt (x := f)
  have hhi := BitVec.two_mul_toInt_lt (x := f)
  norm_cast at hpow hlo hhi
  omega

/-! ### The statements -/

/-- Settles O1: the two bytes are the word that the decoder answers the instruction on. -/
theorem decodeOfEncode : Obligations.DecodeOfEncode := by
  intro i rest
  simp [encode, bytesOfWord, decode, Machine.wordOfBytes_bytes, decodeWord_encodeWord]

/-- Settles O2: the row of the answer selects the word, so the word is some instruction's, and its decoding is that
instruction. -/
theorem encodeOfDecode : Obligations.EncodeOfDecode := by
  intro w i h
  obtain ⟨j, hj⟩ := exists_encodeWord_of_selects (selects_of_decodeWord h)
  obtain rfl : j = i := Except.ok.inj ((decodeWord_of_encodeWord_eq hj).symm.trans h)
  exact hj

/-- Settles O3: answers follow the table, and a word that a row selects is an instruction's word. -/
theorem decodeFollowsOpcodeTable : Obligations.DecodeFollowsOpcodeTable := by
  refine fun w => ⟨fun i => selects_of_decodeWord, fun hwf => ?_, fun hwf => ?_⟩
  · obtain ⟨i, hsel⟩ := wellFormedWord_iff.mp hwf
    obtain ⟨j, hj⟩ := exists_encodeWord_of_selects hsel
    exact ⟨j, decodeWord_of_encodeWord_eq hj⟩
  · cases h : decodeWord w with
    | ok i => simp [wellFormedWord_iff.mpr ⟨i, selects_of_decodeWord h⟩] at hwf
    | error r => rw [reject_of_decodeWord h]

/-- Settles O4: rows that select one word agree where both masks have a bit, and rows of the table that so agree are
equal. -/
theorem opcodeRowsDisjoint : Obligations.OpcodeRowsDisjoint := fun _ r₁ r₂ hmem₁ hmem₂ h₁ h₂ =>
  opcodeRows_eq_of_agree r₁ hmem₁ r₂ hmem₂ (Row.pattern_agree h₁ h₂)

/-- Settles O5: past the test for 0x6020, opcode 6 has only JPR left, whose bit 5 is clear. -/
theorem onlyOneReturnFromInterruptWord : Obligations.OnlyOneReturnFromInterruptWord := by
  intro w hop h5
  refine ⟨by rintro rfl; decide, fun hne => ?_⟩
  have h5' : bitField w 5 = true := h5
  have hop' : opField w = 0b0110#4 := hop
  by_cases hdst : dstField w = 0#3 <;> simp [decodeWord, decodeJpr, hop', h5', hne, hdst]

/-- Settles O40: twice the signed value of at most 8 bits is a signed 16-bit number. -/
theorem scaledOffsets : Obligations.ScaledOffsets := by
  intro n f hn
  obtain ⟨hlo, hhi⟩ := two_mul_toInt_bounds f hn
  have hnat : ((Machine.scaled f).toNat : Int) = 2 * f.toInt % 65536 := by
    simpa using Machine.add_scaled_toNat 0#16 f
  refine ⟨BitVec.toInt_signExtend_of_le (by omega), hnat, ?_, by omega⟩
  rw [BitVec.toInt_eq_toNat_cond]
  split <;> omega

/-- Settles O6: the decoder run on each of the words. -/
theorem sampleWordsDecode : Obligations.SampleWordsDecode := by
  unfold Obligations.SampleWordsDecode
  decide

end Sys2Proof
end

section
/-! PROOFS of the statements of 40_bitwise.md. Every data operation other than SUB ends in `finishData`, so what is the
same for all of them (the flags of the result, the free carry, the frame) is said once for that end; a form then
completes as soon as the word it hands over has the result's property. For AND, ORR and XOR that word is bit by bit what
the library says of the three operators. -/

namespace Sys2Proof.Machine

open Sys2Proof.Safety

/-! ### The common end of the data operations other than SUB (10_state.md R25, R27 to R31) -/

theorem describes_resultFlags (r : Word) (c : Bool) : Describes (resultFlags r c) r where
  negative := msb_iff_toInt_neg r
  zero := beq_iff_eq.trans (BitVec.toInt_inj (y := 0#16)).symm
  positive := (resultFlags_P_iff_range r c).trans (toInt_pos_iff r).symm

theorem dataOpFrame_finishData (s : State) (dst : Reg) (r : Word) : DataOpFrame dst s (finishData s dst r) where
  regs _ h := State.reg_setReg_other s r h
  program _ := rfl
  data _ := rfl
  halted := rfl
  pc := State.nextPc_toNat s

/-- An instruction that ends in `finishData` completes with whatever is true of the word it hands over. -/
theorem completesDataOp_of_finishData {i : Instr} {dst : Reg} {s : State} {r : Word} {result : Word → Prop}
    (he : exec i s = .next (finishData s dst r)) (hr : result r) : CompletesDataOp i dst s result := by
  have hdst : (finishData s dst r).reg dst = r := State.reg_setReg_same s dst r
  refine ⟨finishData s dst r, he, ?_, ?_, ⟨rfl, rfl⟩, dataOpFrame_finishData s dst r⟩
  · rwa [hdst]
  · rw [hdst]
    exact describes_resultFlags r _

/-! ### The second operand of the immediate forms -/

/-- The sign-extended immediate is the 16-bit word of its signed value (00_scope.md R10). -/
theorem sext_eq_ofInt {n : Nat} (v : BitVec n) : sext v = BitVec.ofInt 16 v.toInt := rfl

/-! ### The statements -/

/-- Settles O15: bit k of an and is the and of the bits k. -/
theorem andResult : Obligations.AndResult := by
  refine fun s dst sr1 => ⟨fun sr2 => ?_, fun imm5 => ?_⟩
  · exact completesDataOp_of_finishData rfl fun _ => BitVec.getLsbD_and
  · rw [← sext_eq_ofInt]
    exact completesDataOp_of_finishData rfl fun _ => BitVec.getLsbD_and

/-- Settles O16: bit k of an or is the or of the bits k. -/
theorem orrResult : Obligations.OrrResult := by
  refine fun s dst sr1 => ⟨fun sr2 => ?_, fun imm5 => ?_⟩
  · exact completesDataOp_of_finishData rfl fun _ => BitVec.getLsbD_or
  · rw [← sext_eq_ofInt]
    exact completesDataOp_of_finishData rfl fun _ => BitVec.getLsbD_or

/-- Settles O17: bit k of an exclusive or is whether the bits k differ. -/
theorem xorResult : Obligations.XorResult := by
  refine fun s dst sr1 => ⟨fun sr2 => ?_, fun imm5 => ?_⟩
  · exact completesDataOp_of_finishData rfl fun _ => BitVec.getLsbD_xor
  · rw [← sext_eq_ofInt]
    exact completesDataOp_of_finishData rfl fun _ => BitVec.getLsbD_xor

end Sys2Proof.Machine
end

section
/-! PROOFS of the statements of 41_shift.md. The three shifts by a whole-word distance are given as numbers once, for
every distance of at most 15; the immediate forms take such a distance always, the register forms where the statement
says so. -/

namespace Sys2Proof.Machine

open Sys2Proof.Safety

/-! ### The shifts as numbers (41_shift.md R145, R146) -/

theorem shiftWord_of_le (op : ShiftOp) (v : Word) {distance : Word} (h : distance.toNat ≤ 15) :
    shiftWord op v distance = shiftBy op v distance.toNat := if_pos h

theorem shiftWord_left_toNat (v : Word) {distance : Word} (h : distance.toNat ≤ 15) :
    (shiftWord .left v distance).toNat = v.toNat * 2 ^ distance.toNat % 65536 := by
  rw [shiftWord_of_le .left v h, shiftBy, BitVec.toNat_shiftLeft, Nat.shiftLeft_eq]

theorem shiftWord_rightLogical_toNat (v : Word) {distance : Word} (h : distance.toNat ≤ 15) :
    (shiftWord .rightLogical v distance).toNat = v.toNat / 2 ^ distance.toNat := by
  rw [shiftWord_of_le .rightLogical v h, shiftBy, BitVec.toNat_ushiftRight, Nat.shiftRight_eq_div_pow]

/-- The division of integers rounds down, as the arithmetic shift does. -/
theorem shiftWord_rightArith_toInt (v : Word) {distance : Word} (h : distance.toNat ≤ 15) :
    (shiftWord .rightArith v distance).toInt = v.toInt / 2 ^ distance.toNat := by
  rw [shiftWord_of_le .rightArith v h, shiftBy, BitVec.toInt_sshiftRight, Int.shiftRight_eq_div_pow, Nat.cast_pow,
    Nat.cast_ofNat]

/-! ### The distance of the immediate forms -/

/-- A zero-extended immediate keeps its number (00_scope.md R10). -/
theorem zext_toNat {n : Nat} (v : BitVec n) (hn : n ≤ 16) : (zext v).toNat = v.toNat :=
  BitVec.toNat_setWidth_of_le hn

/-! ### The statements -/

/-- Settles O19: each form hands over its shift, and the distance is in range. -/
theorem shiftRegisterResult : Obligations.ShiftRegisterResult := by
  refine fun s dst sr1 sr2 h => ⟨?_, ?_, ?_⟩
  · exact completesDataOp_of_finishData rfl (shiftWord_left_toNat _ h)
  · exact completesDataOp_of_finishData rfl (shiftWord_rightLogical_toNat _ h)
  · exact completesDataOp_of_finishData rfl (shiftWord_rightArith_toInt _ h)

/-- Settles O18: the zero-extended immediate is a distance of at most 15. -/
theorem shiftImmediateResult : Obligations.ShiftImmediateResult := by
  intro s dst sr1 imm4
  have hk : (zext imm4).toNat = imm4.toNat := zext_toNat imm4 (by decide)
  have h : (zext imm4).toNat ≤ 15 := by omega
  rw [← hk]
  refine ⟨?_, ?_, ?_⟩
  · exact completesDataOp_of_finishData rfl (shiftWord_left_toNat _ h)
  · exact completesDataOp_of_finishData rfl (shiftWord_rightLogical_toNat _ h)
  · exact completesDataOp_of_finishData rfl (shiftWord_rightArith_toInt _ h)

end Sys2Proof.Machine
end

section
/-! PROOFS of the statements of 42_arith.md. The 17-bit sum of a subtraction is the difference modulo 65536 with the
borrow above it; both forms of SUB hand it to `finishWithCarry`, whose flags and frame are said once for that end. A
signed comparison is then a question of where the true difference lies: in range the result is it, out of range the
result is 65536 away and has the other sign. -/

namespace Sys2Proof.Machine

open Sys2Proof.Safety

/-! ### The subtraction (42_arith.md R164) -/

theorem subResult_eq_sub (m s : Word) : subResult m s = m - s := by
  apply BitVec.eq_of_toNat_eq
  rw [subResult, BitVec.toNat_setWidth, subSum_toNat, BitVec.toNat_sub]
  omega

theorem subResult_toNat (m s : Word) : ((subResult m s).toNat : Int) = ((m.toNat : Int) - s.toNat) % 65536 := by
  rw [subResult_eq_sub, BitVec.toNat_sub]
  omega

/-- The signed value of a difference that fits 16 bits is the true difference. -/
theorem subResult_toInt_of_fits {m s : Word} (h : -32768 ≤ m.toInt - s.toInt ∧ m.toInt - s.toInt ≤ 32767) :
    (subResult m s).toInt = m.toInt - s.toInt := by
  rw [subResult_eq_sub, BitVec.toInt_sub]
  exact Int.bmod_eq_of_le (by omega) (by omega)

/-- A true difference that does not fit 16 bits wraps around once, which changes its sign. -/
theorem subResult_toInt_of_not_fits {m s : Word} (h : ¬ (-32768 ≤ m.toInt - s.toInt ∧ m.toInt - s.toInt ≤ 32767)) :
    ((subResult m s).toInt < 0 ↔ s.toInt < m.toInt) ∧ (0 < (subResult m s).toInt ↔ m.toInt < s.toInt) := by
  have hm := m.toInt_lt
  have hm' := m.le_toInt
  have hs := s.toInt_lt
  have hs' := s.le_toInt
  rw [subResult_eq_sub, BitVec.toInt_sub, Int.bmod_def]
  omega

/-! ### The immediate form of ADD (42_arith.md R162) -/

/-- Adding a sign-extended immediate adds its signed value, modulo 65536. -/
theorem add_sext_toNat {n : Nat} (x : Word) (v : BitVec n) :
    ((x + sext v).toNat : Int) = (x.toNat + v.toInt) % 65536 := by
  rw [sext_eq_ofInt, BitVec.toNat_add, BitVec.toNat_ofInt]
  omega

/-! ### The end of SUB (42_arith.md R165, R166) -/

/-- The frame sees neither flag C nor the draws, in which alone the two ends of a data operation differ. -/
theorem dataOpFrame_finishWithCarry (s : State) (dst : Reg) (r : Word) (carry : Bool) :
    DataOpFrame dst s (finishWithCarry s dst r carry) :=
  have ⟨regs, program, data, halted, pc⟩ := dataOpFrame_finishData s dst r
  ⟨regs, program, data, halted, pc⟩

/-- An instruction that ends in `finishWithCarry` with the difference and its carry-out completes a SUB. -/
theorem completesSub_of_finishWithCarry {i : Instr} {dst : Reg} {s : State} {min sub : Word}
    (he : exec i s = .next (finishWithCarry s dst (subResult min sub) (subCarry min sub))) :
    CompletesSub i dst s min sub := by
  have hdst : (finishWithCarry s dst (subResult min sub) (subCarry min sub)).reg dst = subResult min sub :=
    State.reg_setReg_same s dst _
  refine ⟨_, he, ?_, ?_, subCarry_iff min sub, rfl, dataOpFrame_finishWithCarry s dst _ _⟩
  · rw [hdst]
    exact subResult_toNat min sub
  · rw [hdst]
    exact describes_resultFlags _ _

/-! ### The statements -/

/-- Settles O21: the word handed over is the sum, and an immediate adds its signed value. -/
theorem addResult : Obligations.AddResult := fun _ _ _ =>
  ⟨fun _ => completesDataOp_of_finishData rfl (BitVec.toNat_add ..),
    fun _ => completesDataOp_of_finishData rfl (add_sext_toNat ..)⟩

/-- Settles O22: both forms end with the difference of their operands and its carry-out. (The model's own `subResult`
takes the plain name.) -/
theorem subResult_holds : Obligations.SubResult := fun _ _ _ =>
  ⟨fun _ => completesSub_of_finishWithCarry rfl, fun _ => completesSub_of_finishWithCarry rfl⟩

/-- Settles O30: the sum is 65536 more than the difference, so it has its bit 16 exactly when there is no borrow. -/
theorem subtractionCarry : Obligations.SubtractionCarry := by
  intro m s
  have hsum := subSum_toNat m s
  have hcarry := subCarry_iff m s
  refine ⟨hsum, by omega, by omega, subResult_eq_sub m s, ?_, hcarry, ?_, ?_⟩
  · rw [hcarry]
    omega
  · rw [← Bool.not_eq_true, hcarry]
    omega
  · rintro rfl
    exact hcarry.mpr (Nat.zero_le _)

/-- Settles O31: N and P give the sign of the result, that of the true difference or, out of range, the other. -/
theorem signedComparison : Obligations.SignedComparison := by
  intro s t d a b he
  rw [← Host.Outcome.next.inj he]
  obtain ⟨hN, -, hP⟩ := describes_resultFlags (subResult (s.reg b) (s.reg a)) (subCarry (s.reg b) (s.reg a))
  refine ⟨fun hfits => ?_, fun hfits => ?_, ?_, subCarry_iff _ _⟩
  · have hdiff := subResult_toInt_of_fits hfits
    exact ⟨hN.trans (by omega), hP.trans (by omega)⟩
  · obtain ⟨hneg, hpos⟩ := subResult_toInt_of_not_fits hfits
    exact ⟨hN.trans hneg, hP.trans hpos⟩
  · calc (resultFlags (subResult (s.reg b) (s.reg a)) (subCarry (s.reg b) (s.reg a))).Z = true
        ↔ s.reg b - s.reg a = 0#16 := by rw [← subResult_eq_sub]; exact beq_iff_eq
      _ ↔ s.reg a = s.reg b := sub_eq_zero.trans eq_comm

end Sys2Proof.Machine
end

section
/-! PROOFS of the statements of 43_lbi.md. The two words LBI hands over are given as numbers; a constant then goes into a
register byte by byte, because the second LBI keeps of the first one's word only the low byte, which is the constant's high
byte whatever the sign extension put above it. -/

namespace Sys2Proof.Machine

/-! ### The two results as numbers (43_lbi.md R181, R182) -/

/-- Sign extension keeps the signed value (00_scope.md R10). -/
theorem sext_toInt {n : Nat} (v : BitVec n) (hn : n ≤ 16) : (sext v).toInt = v.toInt :=
  BitVec.toInt_signExtend_of_le hn

/-- Shifting left by 8 bits leaves the low byte of the old word alone, above zeros that the immediate fills. -/
theorem shiftInByte_toNat (old : Word) (imm8 : BitVec 8) :
    (shiftInByte old imm8).toNat = old.toNat % 256 * 256 + imm8.toNat := by
  have hold : (old <<< 8).toNat = (old.toNat % 256) <<< 8 := by
    rw [BitVec.toNat_shiftLeft, Nat.shiftLeft_eq, Nat.shiftLeft_eq]
    omega
  rw [shiftInByte, BitVec.toNat_or, hold, zext_toNat imm8 (by decide), ← Nat.shiftLeft_add_eq_or_of_lt imm8.isLt,
    Nat.shiftLeft_eq]

/-! ### The bytes of a word -/

/-- A word with the signed value of a byte has that byte as its low byte. -/
theorem toNat_mod_256_of_toInt_eq {r : Word} {b : BitVec 8} (h : r.toInt = b.toInt) : r.toNat % 256 = b.toNat := by
  rw [BitVec.toInt_eq_toNat_cond, BitVec.toInt_eq_toNat_cond] at h
  omega

theorem upperByte_toNat (w : Word) : (upperByte w).toNat = w.toNat / 256 := by
  rw [upperByte, BitVec.extractLsb'_toNat, Nat.shiftRight_eq_div_pow]
  omega

theorem lowerByte_toNat (w : Word) : (lowerByte w).toNat = w.toNat % 256 :=
  BitVec.extractLsb'_toNat ..

/-! ### The statements -/

/-- Settles O23: each mode hands over its word. -/
theorem lbiResult : Obligations.LbiResult := fun s dst imm8 =>
  ⟨completesDataOp_of_finishData rfl (sext_toInt imm8 (by decide)),
    completesDataOp_of_finishData rfl (shiftInByte_toNat (s.reg dst) imm8)⟩

/-- Settles O24: the second LBI moves up the low byte that the first one put in, and sets the low byte below it. -/
theorem constantInTwoInstructions : Obligations.ConstantInTwoInstructions := by
  intro s dst K
  obtain ⟨t, hst, hhigh, -⟩ := (lbiResult s dst (upperByte K)).1
  obtain ⟨u, htu, hpair, hflags, -⟩ := (lbiResult t dst (lowerByte K)).2
  have hmid : (t.reg dst).toNat % 256 = K.toNat / 256 :=
    (toNat_mod_256_of_toInt_eq hhigh).trans (upperByte_toNat K)
  have hK : u.reg dst = K := by
    apply BitVec.eq_of_toNat_eq
    rw [hpair, hmid, lowerByte_toNat]
    exact Nat.div_add_mod' ..
  exact ⟨t, u, hst, htu, hhigh, hmid, hK, hK ▸ hflags⟩

end Sys2Proof.Machine
end

section
/-! PROOFS of the statements of 44_load_store.md. LDR is its read and STR its write, both with the pc advanced; what the
advance leaves alone is said once for the two. -/

namespace Sys2Proof.Machine

open Sys2Proof.Safety

/-! ### The frame of the memory instructions (44_load_store.md R191, R192) -/

/-- A state that has changed at most registers and data memory, with its pc then advanced. -/
theorem memoryOpFrame_advance {s u : State} (hflags : u.flags = s.flags) (hprog : u.prog = s.prog)
    (hhalted : u.halted = s.halted) (hdraws : u.draws = s.draws) (hpc : u.pc = s.pc) :
    MemoryOpFrame s u.advance where
  flags := hflags
  program a := congrArg (·.read a) hprog
  halted := hhalted
  draws := hdraws
  pc := by rw [Advanced, State.advance_pc, State.nextPc_toNat, hpc]

/-! ### The statements -/

/-- Settles O33: at a good address the read answers the word there, and LDR puts it in DST. -/
theorem ldrLoads : Obligations.LdrLoads := by
  intro s dst sr1 ofst6 v he hg hv
  have hread : memRead s (effectiveAddress s sr1 ofst6) = .ok v :=
    memRead_eq_ok.mpr ⟨misaligned_eq_false.mpr he, deviceHalf_eq_false.mpr hg, hv⟩
  refine ⟨_, execLdr_eq_next.mpr ⟨v, hread, rfl⟩, State.reg_setReg_same s dst v, ?_, fun _ => rfl, ?_⟩
  · exact fun r hr => State.reg_setReg_other s v hr
  · exact memoryOpFrame_advance rfl rfl rfl rfl rfl

/-- Settles O34: at a good address the write changes the word there and nothing else, and STR is that write. -/
theorem strStores : Obligations.StrStores := by
  intro s src sr1 ofst6 he hg
  obtain ⟨-, -, hwrite⟩ := memWriteCases s (effectiveAddress s sr1 ofst6) (s.reg src)
  obtain ⟨u, hw, hword, hdata, hu⟩ := hwrite he hg
  refine ⟨u.advance, execStr_eq_next.mpr ⟨u, hw, rfl⟩, hword, hdata, ?_, ?_⟩ <;> rw [hu]
  · exact fun _ => rfl
  · exact memoryOpFrame_advance rfl rfl rfl rfl rfl

/-- Settles O39: the effective address is the base register with a scaled offset added. -/
theorem effectiveAddressValue : Obligations.EffectiveAddressValue :=
  fun s sr1 ofst6 => add_scaled_toNat (s.reg sr1) ofst6

end Sys2Proof.Machine
end

section
/-! PROOFS of the statements of 45_control.md. The three places control goes to (the next instruction, the target of a BRC,
the target of a jump) are given as the numbers the statements write; a BRC then branches on whatever its condition is
equivalent to. For the table of conditions that is a question about the signed value of one word, the word the flags
describe, with flag C beside it. -/

namespace Sys2Proof.Machine

open Sys2Proof.Safety

/-! ### The next instruction and the targets as numbers (45_control.md R211, R213, R216; 30_encoding.md R88) -/

theorem eq_ofInt_of_toNat {x : Word} {k : Int} (h : (x.toNat : Int) = k % 65536) : x = BitVec.ofInt 16 k := by
  apply BitVec.eq_of_toNat_eq
  rw [BitVec.toNat_ofInt]
  omega

theorem nextPc_eq_ofInt (s : State) : s.nextPc = BitVec.ofInt 16 ((s.pc.toNat : Int) + 2) :=
  eq_ofInt_of_toNat (by rw [State.nextPc_toNat]; omega)

theorem add_scaled_eq_ofInt {n : Nat} (x : Word) (v : BitVec n) :
    x + scaled v = BitVec.ofInt 16 ((x.toNat : Int) + 2 * v.toInt) :=
  eq_ofInt_of_toNat (add_scaled_toNat x v)

theorem branchTarget_eq_ofInt (s : State) (imm8 : BitVec 8) :
    branchTarget s imm8 = BitVec.ofInt 16 ((s.pc.toNat : Int) + 2 + 2 * imm8.toInt) :=
  eq_ofInt_of_toNat (branchTarget_toNat s imm8)

/-! ### BRC and its condition (45_control.md R211, R212) -/

section

variable {n z p c : Bool} {s t : State} {relation : Prop}

theorem exec_brc_of_taken (h : BranchTaken n z p c s.flags) (imm8 : BitVec 8) :
    exec (.brc n z p c imm8) s = .next (s.setPc (branchTarget s imm8)) := by
  rw [exec, execBrc, if_pos (branchCondition_iff.mpr h)]

theorem exec_brc_of_not_taken (h : ¬ BranchTaken n z p c s.flags) (imm8 : BitVec 8) :
    exec (.brc n z p c imm8) s = .next (s.setPc s.nextPc) := by
  rw [exec, execBrc, if_neg (mt branchCondition_iff.mp h)]

/-- A BRC branches on every relation that its condition is equivalent to. -/
theorem branchesIff_of_taken_iff (h : BranchTaken n z p c t.flags ↔ relation) : BranchesIff n z p c t relation := by
  refine fun imm8 => ⟨fun hr => ?_, fun hr => ?_⟩
  · rw [exec_brc_of_taken (h.mpr hr), branchTarget_eq_ofInt]
  · rw [exec_brc_of_not_taken (mt h.mp hr), nextPc_eq_ofInt]

/-- Where the flags describe a word, the condition without flag C asks for the word's sign. -/
theorem branchesIff_of_describes {r : Word} (hf : Describes t.flags r)
    (h : ((n = true ∧ r.toInt < 0) ∨ (z = true ∧ r.toInt = 0) ∨ (p = true ∧ 0 < r.toInt)) ∧
      (c = true → t.flags.C = true) ↔ relation) : BranchesIff n z p c t relation := by
  refine branchesIff_of_taken_iff (Iff.trans ?_ h)
  rw [BranchTaken, hf.negative, hf.zero, hf.positive]

/-- Of the flags a condition sees those that the instruction's bits select. -/
theorem branchTaken_congr {f g : Flags} (hN : n = true → f.N = g.N) (hZ : z = true → f.Z = g.Z)
    (hP : p = true → f.P = g.P) (hC : c = true → f.C = g.C) : BranchTaken n z p c f ↔ BranchTaken n z p c g := by
  have sees {b x y : Bool} (h : b = true → x = y) : b = true → (x = true ↔ y = true) := fun hb => by rw [h hb]
  exact and_congr
    (or_congr (and_congr_right (sees hN)) (or_congr (and_congr_right (sees hZ)) (and_congr_right (sees hP))))
    (imp_congr_right (sees hC))

end

/-! ### The flags that a data operation leaves to a branch (10_state.md R29, 42_arith.md R164) -/

theorem exec_dataOp_describes {i : Instr} {s t : State} (hi : isDataOp i = true) (he : exec i s = .next t) :
    ∃ r, Describes t.flags r := by
  obtain ⟨u, hu, rfl⟩ := effect_of_exec he
  obtain ⟨-, r, c, -, -, hf⟩ := hu.dataOp hi s
  exact ⟨r, hf ▸ describes_resultFlags r c⟩

/-- After SUB the flags describe the difference of the operands, and C says that no borrow occurred. -/
theorem exec_subReg_flags {s t : State} {d a b : Reg} (he : exec (.subReg d a b) s = .next t) :
    Describes t.flags (s.reg b - s.reg a) ∧ (t.flags.C = true ↔ (s.reg a).toNat ≤ (s.reg b).toNat) := by
  rw [← Host.Outcome.next.inj he, ← subResult_eq_sub]
  exact ⟨describes_resultFlags _ _, subCarry_iff _ _⟩

theorem toInt_sub_eq_zero_iff {m s : Word} : (m - s).toInt = 0 ↔ s = m :=
  (BitVec.toInt_inj (y := 0#16)).trans (sub_eq_zero.trans eq_comm)

/-! ### The rows of the table of conditions (45_control.md R219)

Each asks for the sign of the word the flags describe; with c = 1 it also asks for C. -/

section

variable {t : State} {r : Word} (hf : Describes t.flags r)

include hf

/-- The four signed rows. -/
theorem branchesIff_sign :
    BranchesIff true false false false t (r.toInt < 0) ∧ BranchesIff false false true false t (0 < r.toInt) ∧
      BranchesIff true true false false t (r.toInt ≤ 0) ∧ BranchesIff false true true false t (0 ≤ r.toInt) := by
  refine ⟨?_, ?_, ?_, ?_⟩
  · exact branchesIff_of_describes hf (by simp)
  · exact branchesIff_of_describes hf (by simp)
  · exact branchesIff_of_describes hf (by simpa using le_iff_lt_or_eq.symm)
  · exact branchesIff_of_describes hf (by simpa using le_iff_eq_or_lt'.symm)

theorem branchesIff_z : BranchesIff false true false false t (r.toInt = 0) :=
  branchesIff_of_describes hf (by simp)

theorem branchesIff_np (c : Bool) : BranchesIff true false true c t (r.toInt ≠ 0 ∧ (c = true → t.flags.C = true)) :=
  branchesIff_of_describes hf (and_congr_left' (by simp))

/-- A word is negative, zero or positive, so that `nzp` leaves the decision to C. -/
theorem branchesIff_nzp (c : Bool) : BranchesIff true true true c t (c = true → t.flags.C = true) :=
  branchesIff_of_describes hf (and_iff_right (by simpa using lt_trichotomy r.toInt 0))

end

/-- The unsigned rows: A < B is that no borrow occurred and the difference is not 0, A ≤ B that no borrow occurred. -/
theorem exec_subReg_unsigned {s t : State} {d a b : Reg} (he : exec (.subReg d a b) s = .next t) :
    BranchesIff true false true true t ((s.reg a).toNat < (s.reg b).toNat) ∧
      BranchesIff true true true true t ((s.reg a).toNat ≤ (s.reg b).toNat) := by
  obtain ⟨hf, hC⟩ := exec_subReg_flags he
  have hlt : (s.reg a).toNat < (s.reg b).toNat ↔
      (s.reg b - s.reg a).toInt ≠ 0 ∧ (s.reg a).toNat ≤ (s.reg b).toNat := by
    rw [ne_eq, toInt_sub_eq_zero_iff, BitVec.toNat_eq]
    omega
  rw [hlt, ← hC]
  refine ⟨?_, ?_⟩
  · simpa only [forall_const] using branchesIff_np hf true
  · simpa only [forall_const] using branchesIff_nzp hf true

/-! ### The statements -/

/-- Settles O45: the condition is that of R212, and both targets are the numbers stated. -/
theorem brcBranches : Obligations.BrcBranches := fun _ _ _ _ _ => branchesIff_of_taken_iff Iff.rfl

/-- Settles O46: the condition is the same under both flags, and with no flag selected nothing matches. -/
theorem brcReadsSelectedFlags : Obligations.BrcReadsSelectedFlags := by
  refine ⟨fun s n z p c imm8 f hN hZ hP hC => ?_, fun s c => branchesIff_of_taken_iff (by simp [BranchTaken])⟩
  have hsame : BranchTaken n z p c f ↔ BranchTaken n z p c s.flags := branchTaken_congr hN hZ hP hC
  by_cases h : BranchTaken n z p c s.flags
  · rw [exec_brc_of_taken h, exec_brc_of_taken (s := s.setFlags f) (hsame.mpr h)]
    rfl
  · rw [exec_brc_of_not_taken h, exec_brc_of_not_taken (s := s.setFlags f) (mt hsame.mp h)]
    rfl

/-- Settles O47: the target is the register with a scaled immediate added. -/
theorem jprJumps : Obligations.JprJumps := by
  intro s sr1 imm5
  rw [← add_scaled_eq_ofInt]
  rfl

/-- Settles O48: link and target are both taken from the state before. -/
theorem jlrLinksAndJumps : Obligations.JlrLinksAndJumps := by
  intro s dst sr1 imm5
  refine ⟨_, rfl, ?_, add_scaled_toNat (s.reg sr1) imm5, ?_, rfl, fun _ => rfl, fun _ => rfl, rfl, rfl⟩
  · rw [State.setPc_reg, State.reg_setReg_same, State.nextPc_toNat]
  · exact fun r hr => State.reg_setReg_other s _ hr

/-- Settles O49: the return from interrupt is the sequential advance. -/
theorem returnFromInterruptIsNop : Obligations.ReturnFromInterruptIsNop := by
  intro s
  rw [← nextPc_eq_ofInt]
  exact ⟨rfl, rfl⟩

/-- Settles O52: JLR leaves pc + 2 in the link register, and a jump through it with offset 0 goes there. -/
theorem callReturns : Obligations.CallReturns := by
  intro s t link sr1 imm5 he u hu
  obtain ⟨t', he', hlink, -⟩ := jlrLinksAndJumps s link sr1 imm5
  obtain rfl : t = t' := Host.Outcome.next.inj (he.symm.trans he')
  refine ⟨_, jprJumps u link 0, ?_⟩
  calc (BitVec.ofInt 16 (((u.reg link).toNat : Int) + 2 * (0#5).toInt)).toNat
      = (t.reg link).toNat := by simp [hu]
    _ = (s.pc.toNat + 2) % 65536 := hlink

/-- Settles O32: after SUB the flags describe the difference, whose sign is that of the true difference where that one
fits, and which is 0 only for equal operands. -/
theorem conditionTable : Obligations.ConditionTable := by
  refine ⟨fun s t d a b he => ?_, fun s t d a b he => exec_subReg_unsigned he, fun s t d a imm5 he => ?_,
    fun i s t hi he => ?_⟩
  · obtain ⟨hf, -⟩ := exec_subReg_flags he
    obtain ⟨hlt, hle⟩ := exec_subReg_unsigned he
    obtain ⟨hn, hp, hnz, hzp⟩ := branchesIff_sign hf
    refine ⟨hn, hp, hnz, hzp, fun hfits => ?_, hlt, hle, ?_, ?_, ?_⟩
    · have hdiff : (s.reg b - s.reg a).toInt = (s.reg b).toInt - (s.reg a).toInt :=
        subResult_eq_sub _ _ ▸ subResult_toInt_of_fits hfits
      simpa only [hdiff, sub_neg, sub_pos, sub_nonpos, sub_nonneg] using branchesIff_sign hf
    · simpa only [toInt_sub_eq_zero_iff] using branchesIff_z hf
    · have hne := branchesIff_np hf false
      simpa only [ne_eq, toInt_sub_eq_zero_iff, Bool.false_eq_true, false_imp_iff, and_true] using hne
    · simpa only [forall_const] using branchesIff_nzp hf true
  · obtain ⟨r, hf⟩ := exec_dataOp_describes rfl he
    simpa only [forall_const] using branchesIff_nzp hf true
  · obtain ⟨r, hf⟩ := exec_dataOp_describes hi he
    simpa only [Bool.false_eq_true, false_imp_iff] using branchesIff_nzp hf false

end Sys2Proof.Machine
end

section
/-! PROOFS of the statements of 46_swap.md. What one SWP does is read off its read and the write that follows; that two
restore everything then follows from that statement alone, because the base register is kept and memories that hold one
word at an address, and are equal outside it, are equal byte by byte. -/

namespace Sys2Proof.Machine

open Sys2Proof.Safety

/-! ### A word of memory and its two bytes (20_memory.md R50) -/

theorem Memory.readWord_eq_some_iff {m : Memory} {a v : Word} :
    m.readWord a = some v ↔ m.read a.toNat = some (lowerByte v) ∧ m.read (a.toNat + 1) = some (upperByte v) := by
  constructor
  · intro h
    unfold Memory.readWord at h
    split at h
    case h_1 lower upper hlower hupper =>
      obtain rfl := Option.some.inj h
      exact ⟨by rw [hlower, lowerByte_wordOfBytes], by rw [hupper, upperByte_wordOfBytes]⟩
    case h_2 => cases h
  · rintro ⟨hlower, hupper⟩
    simp [Memory.readWord, hlower, hupper, wordOfBytes_bytes]

theorem sameDataBut_trans {a : Word} {s t u : State} (hst : SameDataBut a s t) (htu : SameDataBut a t u) :
    SameDataBut a s u := fun b hlower hupper => (htu b hlower hupper).trans (hst b hlower hupper)

/-- Data memories that hold the same word at an address and are equal outside it are equal. -/
theorem sameData_of_readWord_eq {a v : Word} {s t : State} (hs : s.data.readWord a = some v)
    (ht : t.data.readWord a = some v) (hbut : SameDataBut a s t) : SameData s t := by
  obtain ⟨hslower, hsupper⟩ := Memory.readWord_eq_some_iff.mp hs
  obtain ⟨htlower, htupper⟩ := Memory.readWord_eq_some_iff.mp ht
  intro b
  by_cases hlower : b = a.toNat
  · rw [hlower, htlower, hslower]
  · by_cases hupper : b = a.toNat + 1
    · rw [hupper, htupper, hsupper]
    · exact hbut b hlower hupper

/-! ### The statements -/

/-- Settles O35: at a good address the read answers the word there, which SWP puts in DST after writing the old DST in its
place. -/
theorem swpExchanges : Obligations.SwpExchanges := by
  intro s dst sr1 ofst6 v he hg hv
  have hread : memRead s (effectiveAddress s sr1 ofst6) = .ok v :=
    memRead_eq_ok.mpr ⟨misaligned_eq_false.mpr he, deviceHalf_eq_false.mpr hg, hv⟩
  refine ⟨_, execSwp_eq_next.mpr ⟨v, hread, rfl⟩, State.reg_setReg_same _ dst v,
    Memory.readWord_writeWord_same s.data _ _, sameDataBut_writeWord s _ _, ?_, ?_⟩
  · exact fun r hr => State.reg_setReg_other _ v hr
  · exact memoryOpFrame_advance rfl rfl rfl rfl rfl

/-- Settles O44: the first SWP keeps the base register, so the second finds the old DST at the same address and exchanges
the two back. -/
theorem swapTwiceRestores : Obligations.SwapTwiceRestores := by
  intro s t d a o hda hswp
  obtain ⟨v, hread, -⟩ := execSwp_eq_next.mp hswp
  obtain ⟨he, hg, hv⟩ := memRead_eq_ok.mp hread
  rw [misaligned_eq_false] at he
  rw [deviceHalf_eq_false] at hg
  obtain ⟨t', hswp', htd, htword, htdata, htregs, htframe⟩ := swpExchanges s d a o v he hg hv
  obtain rfl : t = t' := Host.Outcome.next.inj (hswp.symm.trans hswp')
  have haddr : effectiveAddress t a o = effectiveAddress s a o := effectiveAddress_congr (htregs a hda.symm) o
  rw [← haddr] at he hg hv htword htdata
  obtain ⟨u, hswp₂, hud, huword, hudata, huregs, huframe⟩ := swpExchanges t d a o _ he hg htword
  refine ⟨u, hswp₂, fun r => ?_, ?_, huframe.flags.trans htframe.flags⟩
  · by_cases hr : r = d
    · rw [hr, hud]
    · exact (huregs r hr).trans (htregs r hr)
  · exact sameData_of_readWord_eq hv (htd ▸ huword) (sameDataBut_trans htdata hudata)

end Sys2Proof.Machine
end

section
/-! PROOFS of the statements of 47_nop_hlt.md. Under each of the two opcodes the decoder makes one test, for the single word
that has a meaning, and an instruction with no operands has one effect: NOP is the sequential advance, HLT sets the halted
bit, and a step of a halted processor stays. -/

namespace Sys2Proof.Machine

open Sys2Proof.Safety

/-! ### The opcodes of NOP and HLT (30_encoding.md R86, R90) -/

theorem decodeWord_of_opField_nop {w : Word} (h : opField w = 0b0000#4) :
    decodeWord w = if w = 0x0000#16 then .ok .nop else .error (.reserved w) := by
  simp only [decodeWord, h, BitVec.toNat_ofNat]

theorem decodeWord_of_opField_hlt {w : Word} (h : opField w = 0b0011#4) :
    decodeWord w = if w = 0x3000#16 then .ok .hlt else .error (.reserved w) := by
  simp only [decodeWord, h, BitVec.toNat_ofNat]

/-! ### The statements -/

/-- Settles O50: the decoder tests for 0x0000 alone, and NOP is the sequential advance. -/
theorem nopOnlyAdvances : Obligations.NopOnlyAdvances := by
  refine ⟨fun w hop => ?_, fun s => ?_⟩
  · rw [decodeWord_of_opField_nop hop]
    exact ⟨fun hw => if_pos hw, fun hw => if_neg hw⟩
  · rw [← nextPc_eq_ofInt]
    rfl

/-- Settles O51: the decoder tests for 0x3000 alone; HLT leaves the processor halted, so the step after it stays. -/
theorem hltHalts : Obligations.HltHalts := by
  have hexec (s : State) : exec .hlt s = .next (s.setHalted true) := rfl
  refine ⟨fun w hop => ?_, hexec, fun s t he => ?_⟩
  · rw [decodeWord_of_opField_hlt hop]
    exact ⟨fun hw => if_pos hw, fun hw => if_neg hw⟩
  · obtain rfl : s.setHalted true = t := Host.Outcome.next.inj ((hexec s).symm.trans he)
    exact haltedProcessorStays _ (State.setHalted_halted s true)

end Sys2Proof.Machine
end

section
/-! PROOFS of the statement of 60_exceptions.md and of the two left of 10_state.md and 41_shift.md. The checks of a fetch
that stop a step are said one by one, each under the conditions that let the fetch come to it. -/

namespace Sys2Proof.Machine

open Sys2Proof.Safety

/-! ### What stops a step before execution (60_exceptions.md R264) -/

theorem step_of_fetchInstr_error {s : State} {f : Fault} (hh : s.halted = false) (hf : fetchInstr s = .error f) :
    step s = .fault f := by
  simp [step, hh, hf]

theorem fetchInstr_unwritten {s : State} (he : s.pc.toNat % 2 = 0) (hw : s.prog.readWord s.pc = none) :
    fetchInstr s = .error (.uninitialisedRead .program s.pc) := by
  simp [fetchInstr, fetchWord, misaligned_eq_false.mpr he, hw]

theorem fetchInstr_rejected {s : State} {w : Word} {r : Reject} (he : s.pc.toNat % 2 = 0)
    (hw : s.prog.readWord s.pc = some w) (hr : decodeWord w = .error r) :
    fetchInstr s = .error (.reservedEncoding w s.pc) := by
  simp [fetchInstr, fetchWord, misaligned_eq_false.mpr he, hw, hr]

/-! ### A shift by 16 or more (41_shift.md R145) -/

theorem shiftWord_of_gt (op : ShiftOp) (v : Word) {distance : Word} (h : 15 < distance.toNat) :
    shiftWord op v distance = Config.shiftOver op v distance := if_neg (Nat.not_le_of_gt h)

/-! ### The statements -/

/-- Settles O8: each stop is the fault of the fetch, and a word of no form is one that the decoder rejects. -/
theorem stepStopsBeforeExecution : Obligations.StepStopsBeforeExecution := by
  refine fun s hh => ⟨step_of_odd_pc hh, fun he hw => ?_, fun w he hw hform => ?_⟩
  · exact step_of_fetchInstr_error hh (fetchInstr_unwritten he hw)
  · obtain ⟨-, -, hreject⟩ := decodeFollowsOpcodeTable w
    exact step_of_fetchInstr_error hh (fetchInstr_rejected he hw (hreject hform))

/-- Settles O20: each form hands over its shift, and the distance is out of range. -/
theorem shiftRegisterOverDistance : Obligations.ShiftRegisterOverDistance := by
  refine fun s dst sr1 sr2 h => ⟨?_, ?_, ?_⟩
  · exact completesDataOp_of_finishData rfl (shiftWord_of_gt .left _ h)
  · exact completesDataOp_of_finishData rfl (shiftWord_of_gt .rightLogical _ h)
  · exact completesDataOp_of_finishData rfl (shiftWord_of_gt .rightArith _ h)

/-- Settles O12: after reset neither memory lists a byte, so all that the invariant asks of listed bytes holds. -/
theorem resetInvariant : Obligations.ResetInvariant where
  progForm := rfl
  dataForm := rfl
  progWords _ := rfl
  dataWords _ := rfl
  progRange := List.forall_mem_nil _
  dataRange := List.forall_mem_nil _

end Sys2Proof.Machine
end
